-- ==== Sys2Proof/Word.lean ====
section
/-! DEFINITION. The word types of the block: bit 0 is the least significant bit, values are unsigned
(00_scope.md R8). A "word" of the spec's kernels is 64 bits; the register port moves 32 bits. -/

namespace Sys2Proof

/-- 8 bits (R8). -/
abbrev Byte := BitVec 8

/-- 16 bits, the width of `fold32to16` (R6, FOLD16_WIDTH). -/
abbrev Half := BitVec 16

/-- 32 bits: a register of the port, a command word, a wsum (R6, WSUM_WIDTH). -/
abbrev Word := BitVec 32

/-- 64 bits: an address, the accumulator, a machine word (R6, ADDR_WIDTH and ACC_WIDTH). -/
abbrev DWord := BitVec 64

end Sys2Proof
end

