-- ==== Sys2Proof/Config.lean ====
section
/-! DEFINITION. What is fixed for the machine: the fixed parameters of 00_scope.md R6 that a rule uses as a
number, the closed sets of names (error codes, strategies), and the free values, which have no body: nothing in
Lean can evaluate them. The platform parameters of R7 are fields of State (log 3). -/

namespace Sys2Proof

/-- The six errors a command can end with (60_exceptions.md R200). -/
inductive ErrCode where
  | illegal
  | reserved
  | badLength
  | badCount
  | range
  | bus
deriving DecidableEq, Repr

/-- The four carry-chain strategies CSUM40's hint can name (30_encoding.md R86). -/
inductive Strategy where
  | seq
  | dual
  | flagpair
  | tree
deriving DecidableEq, Repr

namespace Config

/-- FIXED_LEN, the byte count of CSUM40 (00_scope.md R6). -/
abbrev fixedLen : Nat := 40

/-- LOADER_MAX, the largest count of LDW (00_scope.md R6). -/
abbrev loaderMax : Nat := 8

/-- The size of the address space, `2^ADDR_WIDTH` (00_scope.md R6). -/
abbrev addrSpace : Nat := 2 ^ 64

/-- REG_BLOCK_BYTES, the size of the register block (00_scope.md R6). -/
abbrev regBlockBytes : Nat := 64

/-- FREE VALUE (log 7): the draw, among the rejected addresses of a range, of the one a BUS error records
(60_exceptions.md R203). The argument numbers the draw. -/
opaque busDraw : Nat → Nat

/-- FREE VALUE (log 8): which of the values a byte held during a command's read window its read returns
(20_memory.md R74). The arguments number the command's draw and give the byte's address, so each byte is drawn
independently. -/
opaque raceDraw : Nat → Nat → Nat

end Config

end Sys2Proof
end

