-- ==== Sys2Proof/Machine/State.lean ====
section
/-! DEFINITION. The state: the block's registers exactly as 10_state.md R20 and R46 list them, and beside them what
the outside world holds and will do (memory as the port answers it, the platform's parameters, the coming moves of
the agents), since the step function takes nothing but a state. All of it is plain data. -/

namespace Sys2Proof.Machine

/-- The block's architectural state: the record of 10_state.md R46. ID is constant, CMD and 0x3C hold no state
(R24, R28), IRQ is a function of this record (60_exceptions.md R210). -/
structure CsumUnit where
  /-- CTRL.IE (R25). -/
  ie : Bool
  /-- STATUS.BUSY (R26). -/
  busy : Bool
  /-- STATUS.DONE (R26). -/
  done : Bool
  /-- STATUS.ERRV (R26). -/
  errv : Bool
  /-- STATUS.OVR (R26). -/
  ovr : Bool
  /-- STATUS.ECODE (R26). -/
  ecode : BitVec 4
  /-- CF, STATUS bit 4 (R31). -/
  cf : Bool
  /-- ADDR (R29). -/
  addr : DWord
  /-- LEN (R30). -/
  len : Word
  /-- SUM_IN (R32). -/
  sumIn : Word
  /-- ACC (R33). -/
  acc : DWord
  /-- DATA (R35). -/
  data : DWord
  /-- RESULT (R36). -/
  result : Word
  /-- ERRADDR (R37). -/
  errAddr : DWord
  /-- PENDING (R40). -/
  pending : Option Word
deriving DecidableEq, Repr

/-- Every register at the value 10_state.md R45 gives it for reset. -/
def CsumUnit.reset : CsumUnit where
  ie := false
  busy := false
  done := false
  errv := false
  ovr := false
  ecode := 0
  cf := false
  addr := 0
  len := 0
  sumIn := 0
  acc := 0
  data := 0
  result := 0
  errAddr := 0
  pending := none

/-- The 16 registers of the register block, in the order of their offsets (10_state.md R24). -/
inductive Reg where
  | id
  | ctrl
  | status
  | cmd
  | addrLo
  | addrHi
  | len
  | sumIn
  | accLo
  | accHi
  | dataLo
  | dataHi
  | result
  | errAddrLo
  | errAddrHi
  | reserved
deriving DecidableEq, Repr

/-- The width of a host access (44_control.md R188). -/
inductive AccessWidth where
  | bits8
  | bits16
  | bits32
  | bits64
deriving DecidableEq, Repr

/-- Memory as (address, byte) pairs: addresses strictly rising, no entry equal to what an unlisted address
reads as. -/
abbrev Memory := List Host.Cell

/-- How the platform answers reads of a range of addresses that is not ordinary readable memory. -/
inductive RegionKind where
  /-- The port rejects every read (20_memory.md R60). -/
  | rejected
  /-- A read has side effects (20_memory.md R69). -/
  | device
  /-- The port never answers a read (44_control.md R193, 93_implementation_defined.md P6). -/
  | silent
deriving DecidableEq, Repr

/-- A range of `size` addresses from `base` on. -/
structure Region where
  base : Nat
  size : Nat
  kind : RegionKind
deriving DecidableEq, Repr

/-- MemPort at one moment (00_scope.md R7, 93_implementation_defined.md P3): the bytes, and the ranges that are not
ordinary readable memory. -/
structure PortImage where
  mem : Memory
  regions : List Region
deriving DecidableEq, Repr

/-- The platform's open parameters that are fixed for the machine (00_scope.md R7); MemPort is `PortImage`. No step
changes them (log 3). -/
structure Platform where
  /-- REG_BASE (D32). -/
  regBase : DWord
  /-- COHERENT (D25). -/
  coherent : Bool
  /-- IRQ_ROUTE's line number (D33). -/
  irqLine : Nat
deriving DecidableEq, Repr

/-- One move of one agent (44_control.md R180). -/
inductive Event where
  /-- The host writes `v` at a platform address (R180, R186, R189). -/
  | hostWrite (addr : DWord) (width : AccessWidth) (v : Word)
  /-- The host reads at a platform address (R180, R187). -/
  | hostRead (addr : DWord) (width : AccessWidth)
  /-- The block's turn: its `Exec` step if a command is pending, nothing otherwise (R180, R182). -/
  | blockTurn
  /-- The hardware reset input (70_reset_and_hazards.md R230). -/
  | hardwareReset
  /-- A store of another agent reaches memory (20_memory.md R74). -/
  | agentStore (addr : DWord) (b : Byte)
  /-- The host stores to memory; the store reaches it at once if COHERENT (20_memory.md R76). -/
  | hostStore (addr : DWord) (b : Byte)
  /-- The host's stores to `n` bytes from `addr` on reach memory, by a cache or fence operation of the host or by
  the cache's own doing (20_memory.md R76). -/
  | storesReach (addr : Nat) (n : Nat)
  /-- The platform changes which addresses the port answers, and how (93_implementation_defined.md P3). -/
  | portMap (regions : List Region)
deriving DecidableEq, Repr

/-- The state of the machine. -/
structure State where
  /-- The block's registers (10_state.md R20). -/
  unit : CsumUnit
  /-- What the memory port answers from now (20_memory.md R60). -/
  port : PortImage
  /-- The earlier port images since the running command was accepted, newest first (20_memory.md R74). -/
  window : List PortImage
  /-- The host's stores that have not reached memory, oldest first (20_memory.md R76). -/
  unseen : List (DWord × Byte)
  /-- The fixed platform parameters (00_scope.md R7). -/
  platform : Platform
  /-- The moves still to come, in the order they happen (log 2). -/
  events : List Event
  /-- The words the register port has returned to the host, newest first (log 10). -/
  reads : List Word
  /-- Numbers the free values used so far (log 7). -/
  draws : Nat
deriving DecidableEq, Repr

/-- The one reason the machine stops with a fault. The errors of 60_exceptions.md R200 are no faults of the model:
the block records them and goes on (44_control.md R185). -/
inductive Fault where
  /-- Raised by LDW, CSUM and CSUM40 when their range touches an address whose read the port never answers
  (93_implementation_defined.md P6: "stuck on such a platform"; 44_control.md R193). Safe: the model stops where the
  block hangs with BUSY = 1 until reset (log 6). -/
  | portNeverAnswers
deriving DecidableEq, Repr

/-- The reasons the model gives a step no meaning. -/
inductive Refusal where
  /-- Raised by `exec` for a command that has no meaning yet. Safe: nothing is claimed of it. -/
  | notModelled (mnemonic : String)
  /-- Raised by LDW, CSUM and CSUM40 when their range touches memory with read side effects or the block's own
  registers (20_memory.md R69: "A model refuses it"). Safe (log 5). -/
  | sideEffectRange
  /-- Raised by a host access to this block that is not an aligned 32-bit access (44_control.md R188: "A model
  refuses such an access"). Safe (log 9). -/
  | registerAccessRejected
  /-- Raised by a host access outside this block's 64 bytes (10_state.md R23): it is no step of this block. Safe
  (log 9). -/
  | notThisBlock
deriving DecidableEq, Repr

/-- Right after reset: the block at R45's values; memory with nothing listed (log 4); nothing in flight and nothing
to come (log 2); the platform's parameters at the values log 3 names. -/
def State.reset : State where
  unit := CsumUnit.reset
  port := { mem := [], regions := [] }
  window := []
  unseen := []
  platform := { regBase := 0xF0000000, coherent := true, irqLine := 0 }
  events := []
  reads := []
  draws := 0

end Sys2Proof.Machine
end

