-- ==== Sys2Proof/Machine/Flags.lean ====
section
/-! DEFINITION. The carry-producing add (00_scope.md R9) and the flags: the STATUS word (10_state.md R26), its
write-one-to-clear bits (R27), and the interrupt output (60_exceptions.md R210). No command sets a zero, sign or
overflow flag (R39). -/

namespace Sys2Proof.Machine

/-- The exact sum of R9's `add_c_N`, an N+1-bit value. -/
def exactSum {n : Nat} (a b : BitVec n) (cin : Bool) : Nat := a.toNat + b.toNat + cin.toNat

/-- `add_c_N(a, b, cin)`: the low N bits of the exact sum, and its bit N (R9). -/
def addC {n : Nat} (a b : BitVec n) (cin : Bool) : BitVec n × Bool :=
  (BitVec.ofNat n (exactSum a b cin), decide (2 ^ n ≤ exactSum a b cin))

/-- ECODE as STATUS shows it: it reads 0 when ERRV = 0 (R26, log 16). -/
def CsumUnit.shownEcode (u : CsumUnit) : BitVec 4 := if u.errv then u.ecode else 0

/-- The STATUS word: BUSY, DONE, ERRV, OVR and CF in bits 0 to 4, ECODE in bits 11:8, 0 elsewhere (R26). -/
def CsumUnit.statusWord (u : CsumUnit) : Word :=
  BitVec.ofNat 32
    (u.busy.toNat + 2 * u.done.toNat + 4 * u.errv.toNat + 8 * u.ovr.toNat + 16 * u.cf.toNat
      + 256 * u.shownEcode.toNat)

/-- W1C of DONE, STATUS bit 1 (R27). -/
def CsumUnit.ackDone (u : CsumUnit) (v : Word) : CsumUnit :=
  { u with done := u.done && !v.getLsbD 1 }

/-- W1C of ERRV, STATUS bit 2, which also clears ECODE: the return from an error (R27, 60_exceptions.md R207). -/
def CsumUnit.ackError (u : CsumUnit) (v : Word) : CsumUnit :=
  { u with errv := u.errv && !v.getLsbD 2, ecode := if v.getLsbD 2 then 0 else u.ecode }

/-- W1C of OVR, STATUS bit 3 (R27). -/
def CsumUnit.ackOverrun (u : CsumUnit) (v : Word) : CsumUnit :=
  { u with ovr := u.ovr && !v.getLsbD 3 }

/-- A host write of `v` to STATUS (R27). -/
def CsumUnit.writeStatus (u : CsumUnit) (v : Word) : CsumUnit :=
  ((u.ackDone v).ackError v).ackOverrun v

/-- A host write of `v` to CTRL keeps only bit 0 (R25, 44_control.md R189). -/
def CsumUnit.writeCtrl (u : CsumUnit) (v : Word) : CsumUnit := { u with ie := v.getLsbD 0 }

/-- An ignored host write leaves its mark in OVR and changes nothing else (R26, 60_exceptions.md R208). -/
def CsumUnit.setOverrun (u : CsumUnit) : CsumUnit := { u with ovr := true }

/-- The interrupt output, a level (60_exceptions.md R210). -/
def CsumUnit.irq (u : CsumUnit) : Bool := u.ie && (u.done || u.errv)

end Sys2Proof.Machine
end

