-- ==== Sys2Proof/Machine/Operands.lean ====
section
/-! DEFINITION. The register operands as the register port sees them: halves of 64-bit registers, the register map
(10_state.md R24), reads (44_control.md R187) and stores (44_control.md R189). -/

namespace Sys2Proof.Machine

/-- The constant of the ID register: "CS" and the command-set version 1 (10_state.md R24). -/
def idValue : Word := 0x43530001

/-- Bits 31:0. -/
def loHalf (x : DWord) : Word := x.extractLsb' 0 32

/-- Bits 63:32. -/
def hiHalf (x : DWord) : Word := x.extractLsb' 32 32

/-- `x` with bits 31:0 replaced; the other half is unchanged (10_state.md R38). -/
def setLo (x : DWord) (v : Word) : DWord := hiHalf x ++ v

/-- `x` with bits 63:32 replaced; the other half is unchanged (10_state.md R38). -/
def setHi (x : DWord) (v : Word) : DWord := v ++ loHalf x

/-- The register map in the order of the offsets 0x00, 0x04, ..., 0x3C (10_state.md R24). -/
def regMap : List Reg :=
  [.id, .ctrl, .status, .cmd, .addrLo, .addrHi, .len, .sumIn,
   .accLo, .accHi, .dataLo, .dataHi, .result, .errAddrLo, .errAddrHi, .reserved]

/-- The register at byte offset `off` of the register block (10_state.md R23). -/
def regAtOffset (off : Nat) : Reg := regMap.getD (off / 4) .reserved

/-- The value a host read of a register returns (10_state.md R24, 44_control.md R187). -/
def CsumUnit.readReg (u : CsumUnit) : Reg → Word
  | .id => idValue
  | .ctrl => BitVec.ofNat 32 u.ie.toNat
  | .status => u.statusWord
  | .cmd => 0
  | .addrLo => loHalf u.addr
  | .addrHi => hiHalf u.addr
  | .len => u.len
  | .sumIn => u.sumIn
  | .accLo => loHalf u.acc
  | .accHi => hiHalf u.acc
  | .dataLo => loHalf u.data
  | .dataHi => hiHalf u.data
  | .result => u.result
  | .errAddrLo => loHalf u.errAddr
  | .errAddrHi => hiHalf u.errAddr
  | .reserved => 0

/-- A host store of `v` into an operand or result register that may be written now (44_control.md R189). The other
registers are not stored to here. -/
def CsumUnit.storeOperand (u : CsumUnit) (r : Reg) (v : Word) : CsumUnit :=
  match r with
  | .addrLo => { u with addr := setLo u.addr v }
  | .addrHi => { u with addr := setHi u.addr v }
  | .len => { u with len := v }
  | .sumIn => { u with sumIn := v }
  | .accLo => { u with acc := setLo u.acc v }
  | .accHi => { u with acc := setHi u.acc v }
  | .dataLo => { u with data := setLo u.data v }
  | .dataHi => { u with data := setHi u.data v }
  | .result => { u with result := v }
  | .id => u
  | .ctrl => u
  | .status => u
  | .cmd => u
  | .errAddrLo => u
  | .errAddrHi => u
  | .reserved => u

end Sys2Proof.Machine
end

