-- ==== Sys2Proof/Machine/Ops.lean ====
section
/-! DEFINITION. The named operations over memory and registers that the commands share: bytes of memory, what the
port answers, the checks of a byte range, and the two ways a command ends, commit (44_control.md R184) and failure
(R185). -/

namespace Sys2Proof.Machine

/-! ### Memory -/

/-- What an address that memory does not list reads as (log 4). -/
def unlistedByte : Byte := 0

/-- One byte of memory. -/
def Memory.read : Memory → Nat → Byte
  | [], _ => unlistedByte
  | (k, b) :: m, a => if k = a then b else Memory.read m a

/-- An entry in front of a memory, left out if it equals what an unlisted address reads as. -/
def Memory.enter (a : Nat) (b : Byte) (m : Memory) : Memory :=
  if b = unlistedByte then m else (a, b) :: m

/-- Memory with one byte replaced; it keeps the canonical form. Only other agents write memory: the block never
does (20_memory.md R61). -/
def Memory.write : Memory → Nat → Byte → Memory
  | [], a, b => Memory.enter a b []
  | (k, c) :: m, a, b =>
    if a < k then Memory.enter a b ((k, c) :: m)
    else if a = k then Memory.enter a b m
    else (k, c) :: Memory.write m a b

/-- The canonical form from address `lo` on: addresses strictly rising and in the address space, no entry equal to
what an unlisted address reads as. -/
def Memory.wfFrom : Nat → Memory → Bool
  | _, [] => true
  | lo, (k, b) :: m =>
    decide (lo ≤ k) && decide (k < Config.addrSpace) && decide (b ≠ unlistedByte) && Memory.wfFrom (k + 1) m

/-- The canonical form of a memory. -/
def Memory.wf (m : Memory) : Bool := Memory.wfFrom 0 m

/-! ### What the port answers -/

/-- The region holds address `a`. -/
def Region.covers (r : Region) (a : Nat) : Bool := decide (r.base ≤ a) && decide (a < r.base + r.size)

/-- The region and the `n` addresses from `a` on have an address in common. -/
def Region.touches (r : Region) (a n : Nat) : Bool :=
  decide (0 < n) && decide (0 < r.size) && decide (r.base < a + n) && decide (a < r.base + r.size)

/-- The port's answer to a read of address `a` in ordinary memory: a byte, or none for a rejection
(20_memory.md R60). -/
def PortImage.answer (p : PortImage) (a : Nat) : Option Byte :=
  if p.regions.any (fun r => r.kind == .rejected && r.covers a) then none else some (Memory.read p.mem a)

/-- The port images a read of the running command may be answered from (20_memory.md R73, R74). -/
def State.images (s : State) : List PortImage := s.port :: s.window

/-- The port image that answers the read of address `a`: the present one if nothing changed since acceptance, else
a free draw among those of the window, for each byte on its own (20_memory.md R74, log 8). -/
def State.imageFor (s : State) (a : Nat) : PortImage :=
  match s.window with
  | [] => s.port
  | _ :: _ => s.images.getD (Config.raceDraw s.draws a % s.images.length) s.port

/-- The answer to a command's read of address `a`. -/
def State.answer (s : State) (a : Nat) : Option Byte := (s.imageFor a).answer a

/-- `MemByte(a)` for an address whose read is not rejected (00_scope.md R11). (The value given for a rejected
address is never used: `onRange` has ended the command by then.) -/
def State.memByte (s : State) (a : DWord) : Byte := (s.answer a.toNat).getD unlistedByte

/-- `MemRead(a, n)`: little-endian, zero-padded (00_scope.md R11, 20_memory.md R62), over the bytes `rd` gives. -/
def memRead (rd : DWord → Byte) (a : DWord) : Nat → DWord
  | 0 => 0
  | k + 1 => memRead rd a k + ((rd (a + BitVec.ofNat 64 k)).setWidth 64 <<< (8 * k))

/-! ### The byte range of a command -/

/-- The range wraps past the top of the address space (20_memory.md R70). -/
def wraps (addr : DWord) (n : Nat) : Bool := decide (Config.addrSpace < addr.toNat + n)

/-- Some image of the window has a region of this kind in the range. -/
def State.rangeTouches (s : State) (kind : RegionKind) (addr : DWord) (n : Nat) : Bool :=
  s.images.any (fun p => p.regions.any (fun r => r.kind == kind && r.touches addr.toNat n))

/-- The range holds an address of the block's own registers (20_memory.md R69, log 5). DESIGN CHOICE: the register
block does not wrap past 2^64, so no low address is one of its own (log 23). -/
def State.touchesRegBlock (s : State) (addr : DWord) (n : Nat) : Bool :=
  Region.touches { base := s.platform.regBase.toNat, size := Config.regBlockBytes, kind := .device } addr.toNat n

/-- The range is outside ordinary memory: reading it has side effects (20_memory.md R69). -/
def State.hasSideEffects (s : State) (addr : DWord) (n : Nat) : Bool :=
  s.rangeTouches .device addr n || s.touchesRegBlock addr n

/-- The addresses of the range whose read the port rejects (60_exceptions.md R203). -/
def State.rejectedIn (s : State) (addr : DWord) (n : Nat) : List Nat :=
  ((List.range n).map (addr.toNat + ·)).filter (fun a => (s.answer a).isNone)

/-- The address a BUS error records: a draw from the rejected addresses (60_exceptions.md R203, log 7). -/
def busAddress (bad : List Nat) (draw : Nat) : DWord :=
  match bad with
  | [] => 0
  | [a] => BitVec.ofNat 64 a
  | a :: _ :: _ => BitVec.ofNat 64 (bad.getD (Config.busDraw draw % bad.length) a)

/-! ### The end of a command -/

/-- The number an error records in ECODE (60_exceptions.md R200). -/
def errNumber : ErrCode → BitVec 4
  | .illegal => 1
  | .reserved => 2
  | .badLength => 3
  | .badCount => 4
  | .range => 5
  | .bus => 6

/-- Commit (44_control.md R184): `u` is the block with the command's updates applied. -/
def commit (u : CsumUnit) (s : State) : State :=
  { s with unit := { u with pending := none, busy := false, done := true }, window := [] }

/-- TAKING AN ERROR, for every command (44_control.md R185): no update of the command is made; `info` is the address
of a RANGE or BUS error. DONE keeps its value, which acceptance set to 0 (log 18). The way back is
`CsumUnit.ackError` or SRST (60_exceptions.md R207). -/
def fail (e : ErrCode) (info : Option DWord) (s : State) : State :=
  { s with
    unit := { s.unit with
      errv := true
      ecode := errNumber e
      errAddr := info.getD s.unit.errAddr
      pending := none
      busy := false }
    window := [] }

/-- Every register at its reset value: the commit of SRST and the hardware reset (44_control.md R190,
70_reset_and_hazards.md R230, R233). Memory and all else outside the block stay (log 22). -/
def resetUnit (s : State) : State := { s with unit := CsumUnit.reset, window := [] }

/-- The next command's free values are new ones (log 7). -/
def countDraw (s : State) : State := { s with draws := s.draws + 1 }

/-- A command over the `n` bytes at ADDR: RANGE before any read (20_memory.md R70, 60_exceptions.md R204), BUS if a read
is rejected (R203), else `run` gives the updates from the bytes. The two stops (20_memory.md R69;
93_implementation_defined.md P6) stand between RANGE and BUS. DESIGN CHOICE, safe: the spec orders neither against
BUS, and with the read order open (R68) a range with a rejected byte and a byte the port never answers could end in
BUS or hang; the model stops (logs 5 and 6). -/
def onRange (n : Nat) (run : (DWord → Byte) → CsumUnit → CsumUnit) (s : State) :
    Host.Outcome State Fault Refusal :=
  if wraps s.unit.addr n then .next (fail .range (some s.unit.addr) s)
  else if s.hasSideEffects s.unit.addr n then .refused .sideEffectRange
  else if s.rangeTouches .silent s.unit.addr n then .fault .portNeverAnswers
  else
    match s.rejectedIn s.unit.addr n with
    | [] => .next (commit (run s.memByte s.unit) (countDraw s))
    | a :: rest => .next (fail .bus (some (busAddress (a :: rest) s.draws)) (countDraw s))

end Sys2Proof.Machine
end

