-- ==== Sys2Proof/Machine/Agents.lean ====
section
/-! DEFINITION. What reaches the block from outside other than register accesses: stores that change memory
(20_memory.md R73, R74, R76), changes of what the port answers, and the hardware reset (70_reset_and_hazards.md
R230). -/

namespace Sys2Proof.Machine

/-- The port answers from `p` from now on. While a command is pending the earlier image stays among those a read may
be answered from (20_memory.md R74, log 8). -/
def changePort (p : PortImage) (s : State) : State :=
  { s with port := p, window := if s.unit.pending.isSome then s.port :: s.window else s.window }

/-- A store of one byte reaches memory (20_memory.md R73, R74). -/
def storeReachesMemory (addr : DWord) (b : Byte) (s : State) : State :=
  changePort { s.port with mem := Memory.write s.port.mem addr.toNat b } s

/-- A host store: it reaches memory at once if COHERENT, else it waits (20_memory.md R76, log 11). -/
def hostStore (addr : DWord) (b : Byte) (s : State) : State :=
  if s.platform.coherent then storeReachesMemory addr b s else { s with unseen := s.unseen ++ [(addr, b)] }

/-- The address is one of the `n` from `a` on. -/
def inSpan (a n : Nat) (addr : DWord) : Bool := decide (a ≤ addr.toNat) && decide (addr.toNat < a + n)

/-- The waiting host stores to the `n` addresses from `a` on reach memory, oldest first (20_memory.md R76,
log 11). -/
def storesReach (a n : Nat) (s : State) : State :=
  (s.unseen.filter (fun c => inSpan a n c.1)).foldl (fun t c => storeReachesMemory c.1 c.2 t)
    { s with unseen := s.unseen.filter (fun c => !inSpan a n c.1) }

/-- The hardware reset: every register to its reset value, a running command abandoned with no commit and no failure
record (70_reset_and_hazards.md R230, R231). -/
def hardwareReset (s : State) : State := resetUnit s

end Sys2Proof.Machine
end

