-- ==== Sys2Proof/Machine/Accumulator.lean ====
section
/-! DEFINITION. INIT, ADD, ADC, ADC0 (40_accumulator.md). -/

namespace Sys2Proof.Machine

/-- The block with (ACC, CF) <- (sum, carry). -/
def CsumUnit.setAcc (u : CsumUnit) (r : DWord × Bool) : CsumUnit := { u with acc := r.1, cf := r.2 }

/-- INIT: ACC <- zext_64(SUM_IN), CF <- 0 (R100). -/
def execInit (s : State) : Host.Outcome State Fault Refusal :=
  .next (commit (s.unit.setAcc (s.unit.sumIn.setWidth 64, false)) s)

/-- ADD: (ACC, CF) <- add_c_64(ACC, DATA, 0) (R102). -/
def execAdd (s : State) : Host.Outcome State Fault Refusal :=
  .next (commit (s.unit.setAcc (addC s.unit.acc s.unit.data false)) s)

/-- ADC: (ACC, CF) <- add_c_64(ACC, DATA, CF) (R104). -/
def execAdc (s : State) : Host.Outcome State Fault Refusal :=
  .next (commit (s.unit.setAcc (addC s.unit.acc s.unit.data s.unit.cf)) s)

/-- ADC0: (ACC, CF) <- add_c_64(ACC, 0, CF) (R106). -/
def execAdc0 (s : State) : Host.Outcome State Fault Refusal :=
  .next (commit (s.unit.setAcc (addC s.unit.acc 0 s.unit.cf)) s)

end Sys2Proof.Machine
end

