-- ==== Sys2Proof/Machine/Control.lean ====
section
/-! DEFINITION. SRST (44_control.md R190). -/

namespace Sys2Proof.Machine

/-- SRST: every register to its reset value; DONE is not set (R190). -/
def execSrst (s : State) : Host.Outcome State Fault Refusal := .next (resetUnit s)

end Sys2Proof.Machine
end

