-- ==== Sys2Proof/Machine/Fold.lean ====
section
/-! DEFINITION. The carry-fold unit: its three functions and FOLD64, FOLD32, SWAP16 (41_fold.md). -/

namespace Sys2Proof.Machine

/-- Add with the carry-out added back in: the shape of both folds (R120, R123). -/
def endAroundAdd {n : Nat} (a b : BitVec n) : BitVec n :=
  (addC (addC a b false).1 0 (addC a b false).2).1

/-- `fold64to32(hi, lo)` (R120). -/
def fold64to32 (hi lo : Word) : Word := endAroundAdd hi lo

/-- `fold64to32(v[63:32], v[31:0])` (R120). -/
def fold64 (v : DWord) : Word := fold64to32 (hiHalf v) (loHalf v)

/-- `fold32to16(v)` (R123). -/
def fold32to16 (v : Word) : Half := endAroundAdd (v.extractLsb' 16 16) (v.extractLsb' 0 16)

/-- `swap16(v)` (R126). -/
def swap16 (v : Half) : Half := v.extractLsb' 0 8 ++ v.extractLsb' 8 8

/-- FOLD64: RESULT <- fold64to32(ACC[63:32], ACC[31:0]) (R122). -/
def execFold64 (s : State) : Host.Outcome State Fault Refusal :=
  .next (commit { s.unit with result := fold64 s.unit.acc } s)

/-- FOLD32: RESULT <- zext_32(fold32to16(RESULT)) (R125). -/
def execFold32 (s : State) : Host.Outcome State Fault Refusal :=
  .next (commit { s.unit with result := (fold32to16 s.unit.result).setWidth 32 } s)

/-- SWAP16: RESULT <- zext_32(swap16(RESULT[15:0])) (R127). -/
def execSwap16 (s : State) : Host.Outcome State Fault Refusal :=
  .next (commit { s.unit with result := (swap16 (s.unit.result.extractLsb' 0 16)).setWidth 32 } s)

end Sys2Proof.Machine
end

