-- ==== Sys2Proof/Machine/Loader.lean ====
section
/-! DEFINITION. The unaligned, zero-padded word loader and LDW (42_loader.md). -/

namespace Sys2Proof.Machine

/-- `loadTail(a, n)` (R140). -/
def loadTail (rd : DWord → Byte) (a : DWord) (n : Nat) : DWord := memRead rd a n

/-- LDW n: DATA <- loadTail(ADDR, n) (R141). Decoding has checked the count of every word that runs (30_encoding.md
R84); a term with another count fails with the same BAD_COUNT (log 15). -/
def execLdw (n : BitVec 4) (s : State) : Host.Outcome State Fault Refusal :=
  if n = 0 ∨ Config.loaderMax < n.toNat then .next (fail .badCount none s)
  else onRange n.toNat (fun rd u => { u with data := loadTail rd u.addr n.toNat }) s

end Sys2Proof.Machine
end

