-- ==== Sys2Proof/Machine/Kernel.lean ====
section
/-! DEFINITION. The checksum kernel function and CSUM, CSUM40 (43_kernel.md). The additions stand in the order R150
lists; an implementation may group them otherwise, with the same value (R162, R163). -/

namespace Sys2Proof.Machine

/-- An open chain over `k` words from `p` on: the first add takes no carry-in, each later one the carry of the one
before (R150 steps 2 and 3). -/
def chain (rd : DWord → Byte) (p acc : DWord) : Nat → DWord × Bool
  | 0 => (acc, false)
  | k + 1 =>
    addC (chain rd p acc k).1 (loadTail rd (p + BitVec.ofNat 64 (8 * k)) 8) (chain rd p acc k).2

/-- "add 0 with carry" (R150): the end of a chain. -/
def closeChain (r : DWord × Bool) : DWord := (addC r.1 0 r.2).1

/-- A closed chain over `k` words. -/
def addWords (rd : DWord → Byte) (k : Nat) (p acc : DWord) : DWord := closeChain (chain rd p acc k)

/-- Step 2 of R150: `b` blocks of 64 bytes. -/
def addBlocks (rd : DWord → Byte) : Nat → DWord → DWord → DWord
  | 0, _, acc => acc
  | b + 1, p, acc => addBlocks rd b (p + 64) (addWords rd 8 p acc)

/-- One test of step 3 of R150: a remainder of `g` bytes if `n & g` is not 0. The pair is (p, acc). -/
def addRemainder (rd : DWord → Byte) (n g : Nat) (x : DWord × DWord) : DWord × DWord :=
  if n &&& g ≠ 0 then (x.1 + BitVec.ofNat 64 g, addWords rd (g / 8) x.1 x.2) else x

/-- Step 4 of R150: a tail of `n & 7` bytes. -/
def addTail (rd : DWord → Byte) (n : Nat) (x : DWord × DWord) : DWord :=
  if n &&& 7 ≠ 0 then closeChain (addC x.2 (loadTail rd x.1 (n &&& 7)) false) else x.2

/-- Steps 2 to 4 of R150 on the `n` bytes from `p` on. -/
def sumBytes (rd : DWord → Byte) (p : DWord) (n : Nat) (acc : DWord) : DWord :=
  addTail rd n
    (addRemainder rd n 8
      (addRemainder rd n 16
        (addRemainder rd n 32
          (p + BitVec.ofNat 64 (64 * (n / 64)), addBlocks rd (n / 64) p acc))))

/-- `csum_partial(addr, len, s)` over the bytes `rd` gives (R150). -/
def csumPartial (rd : DWord → Byte) (addr : DWord) (len : Nat) (s : Word) : Word :=
  if addr.getLsbD 0 then
    if len = 0 then s
    else
      (swap16 (fold32to16 (fold64
        (sumBytes rd (addr + 1) (len - 1) (s.setWidth 64 + ((rd addr).setWidth 64 <<< 8)))))).setWidth 32
  else fold64 (sumBytes rd addr len (s.setWidth 64))

/-- The kernel command over `n` bytes at ADDR: RESULT <- csum_partial(ADDR, n, SUM_IN). ACC and CF are not touched
(10_state.md R34). -/
def kernelOver (n : Nat) (s : State) : Host.Outcome State Fault Refusal :=
  onRange n (fun rd u => { u with result := csumPartial rd u.addr n u.sumIn }) s

/-- CSUM: BAD_LENGTH if LEN[31] = 1, else the kernel over LEN bytes (R151, R152). -/
def execCsum (s : State) : Host.Outcome State Fault Refusal :=
  if s.unit.len.msb then .next (fail .badLength none s) else kernelOver s.unit.len.toNat s

/-- CSUM40: the kernel over 40 bytes, LEN not read (R160). The hint has no architectural effect (R162). -/
def execCsum40 (_hint : Strategy) (s : State) : Host.Outcome State Fault Refusal :=
  kernelOver Config.fixedLen s

end Sys2Proof.Machine
end

