-- ==== Sys2Proof/Syntax.lean ====
section
/-! DEFINITION. The command set (00_scope.md R2, 30_encoding.md R83): one constructor per row of
spec/opcode_table.json. A command has no register field (R80), so the only operands are the immediates of LDW and
CSUM40. -/

namespace Sys2Proof

/-- A command of the block. -/
inductive Instr where
  /-- INIT, R100. -/
  | init
  /-- ADD, R102. -/
  | add
  /-- ADC, R104. -/
  | adc
  /-- ADC0, R106. -/
  | adc0
  /-- FOLD64, R122. -/
  | fold64
  /-- FOLD32, R125. -/
  | fold32
  /-- SWAP16, R127. -/
  | swap16
  /-- LDW n, R141: `n` is the IMM field, a byte count. -/
  | ldw (n : BitVec 4)
  /-- CSUM, R151. -/
  | csum
  /-- CSUM40 hint, R160. -/
  | csum40 (hint : Strategy)
  /-- SRST, R190. -/
  | srst
deriving DecidableEq, Repr

end Sys2Proof
end

