-- ==== Sys2Proof/Machine/Dispatch.lean ====
section
/-! DEFINITION. One arm per command (44_control.md R182: the command's rule in files 40 to 44, with its commit or
failure). -/

namespace Sys2Proof.Machine

def exec (i : Instr) (s : State) : Host.Outcome State Fault Refusal :=
  match i with
  | .init => Sys2Proof.Machine.execInit s
  | .add => Sys2Proof.Machine.execAdd s
  | .adc => Sys2Proof.Machine.execAdc s
  | .adc0 => Sys2Proof.Machine.execAdc0 s
  | .fold64 => Sys2Proof.Machine.execFold64 s
  | .fold32 => Sys2Proof.Machine.execFold32 s
  | .swap16 => Sys2Proof.Machine.execSwap16 s
  | .ldw n => Sys2Proof.Machine.execLdw n s
  | .csum => Sys2Proof.Machine.execCsum s
  | .csum40 hint => Sys2Proof.Machine.execCsum40 hint s
  | .srst => Sys2Proof.Machine.execSrst s

end Sys2Proof.Machine
end

