-- ==== Sys2Proof/WellFormed.lean ====
section
/-! DEFINITION. Which terms of `Instr` are commands of the spec (30_encoding.md R82): the count of LDW is 1 to 8.
Every other term is one. -/

namespace Sys2Proof

/-- The legal operand values of R82's table. -/
def Instr.wf : Instr → Bool
  | .init => true
  | .add => true
  | .adc => true
  | .adc0 => true
  | .fold64 => true
  | .fold32 => true
  | .swap16 => true
  | .ldw n => decide (1 ≤ n.toNat) && decide (n.toNat ≤ Config.loaderMax)
  | .csum => true
  | .csum40 _ => true
  | .srst => true

/-- A term that stands for a command of the spec. -/
abbrev Instr.WellFormed (i : Instr) : Prop := i.wf = true

end Sys2Proof
end

