-- ==== Sys2Proof/Decode.lean ====
section
/-! DEFINITION. Decoding a command word, total on all 2^32 words and rejecting by error code (30_encoding.md R84),
and the encoder written from the same table (R80, R83). -/

namespace Sys2Proof

/-- OPC, bits 7:0 (R80). -/
def opcField (w : Word) : BitVec 8 := w.extractLsb' 0 8

/-- IMM, bits 11:8 (R80). -/
def immField (w : Word) : BitVec 4 := w.extractLsb' 8 4

/-- RSV, bits 31:12 (R80). -/
def rsvField (w : Word) : BitVec 20 := w.extractLsb' 12 20

/-- The assigned opcodes (R83). -/
def opcodes : List (BitVec 8) :=
  [0x01, 0x02, 0x03, 0x04, 0x10, 0x11, 0x12, 0x20, 0x30, 0x31, 0xFF]

/-- The commands whose IMM must be 0, by opcode (R83). -/
def plainCommand (opc : BitVec 8) : Option Instr :=
  if opc = 0x01 then some .init
  else if opc = 0x02 then some .add
  else if opc = 0x03 then some .adc
  else if opc = 0x04 then some .adc0
  else if opc = 0x10 then some .fold64
  else if opc = 0x11 then some .fold32
  else if opc = 0x12 then some .swap16
  else if opc = 0x30 then some .csum
  else if opc = 0xFF then some .srst
  else none

/-- The strategy a hint value names (R86). -/
def strategyOfBits (h : BitVec 2) : Strategy :=
  if h = 0 then .seq
  else if h = 1 then .dual
  else if h = 2 then .flagpair
  else .tree

/-- The decoding of an accepted command word, with R84's checks in R84's order. -/
def decode (w : Word) : Except ErrCode Instr :=
  if opcField w ∉ opcodes then .error .illegal
  else if rsvField w ≠ 0 then .error .reserved
  else if opcField w = 0x20 then
    if immField w = 0 ∨ 8 < (immField w).toNat then .error .badCount
    else .ok (.ldw (immField w))
  else if opcField w = 0x31 then
    if (immField w).extractLsb' 2 2 ≠ 0 then .error .reserved
    else .ok (.csum40 (strategyOfBits ((immField w).extractLsb' 0 2)))
  else if immField w ≠ 0 then .error .reserved
  else
    match plainCommand (opcField w) with
    | some i => .ok i
    | none => .error .illegal

/-- The host's view of `decode`: a command is one 32-bit word (R81), bit 0 the least significant; bits at and above
`nbits` are 0. The answer is none where `decode` raises an error (log 19). -/
def decodeTableWord (nbits w : Nat) : Option Instr :=
  match decode (BitVec.ofNat 32 (w % 2 ^ nbits)) with
  | .ok i => some i
  | .error _ => none

/-- The hint value of a strategy (R86). -/
def strategyBits : Strategy → BitVec 2
  | .seq => 0
  | .dual => 1
  | .flagpair => 2
  | .tree => 3

/-- The opcode of a command (R83). -/
def opcodeOf : Instr → BitVec 8
  | .init => 0x01
  | .add => 0x02
  | .adc => 0x03
  | .adc0 => 0x04
  | .fold64 => 0x10
  | .fold32 => 0x11
  | .swap16 => 0x12
  | .ldw _ => 0x20
  | .csum => 0x30
  | .csum40 _ => 0x31
  | .srst => 0xFF

/-- The IMM field of a command (R82, R83). -/
def immOf : Instr → BitVec 4
  | .init => 0
  | .add => 0
  | .adc => 0
  | .adc0 => 0
  | .fold64 => 0
  | .fold32 => 0
  | .swap16 => 0
  | .ldw n => n
  | .csum => 0
  | .csum40 h => (0#2) ++ strategyBits h
  | .srst => 0

/-- The command word of a command: RSV = 0, IMM, OPC (R80). -/
def encode (i : Instr) : Word := (0#20) ++ (immOf i) ++ (opcodeOf i)

end Sys2Proof
end

