-- ==== Sys2Proof/Machine/HostPort.lean ====
section
/-! DEFINITION. The register port: which register a host access reaches (10_state.md R23, 44_control.md R188), host
writes (R181, R186, R189) and host reads (R187). -/

namespace Sys2Proof.Machine

/-- The byte offset of a platform address in this block's register block, if it lies there (10_state.md R23). DESIGN
CHOICE: REG_BASE + 4*i does not wrap past 2^64, so with REG_BASE within 63 bytes of the top the registers past it
cannot be reached (log 23). -/
def regOffset (p : Platform) (addr : DWord) : Option Nat :=
  if p.regBase.toNat ≤ addr.toNat ∧ addr.toNat < p.regBase.toNat + Config.regBlockBytes then
    some (addr.toNat - p.regBase.toNat)
  else none

/-- The register a host access reaches; only aligned 32-bit accesses are defined (10_state.md R23, 44_control.md
R188). -/
def accessedReg (p : Platform) (addr : DWord) (width : AccessWidth) : Except Refusal Reg :=
  match regOffset p addr with
  | none => .error .notThisBlock
  | some off =>
    if width = .bits32 ∧ off % 4 = 0 then .ok (regAtOffset off) else .error .registerAccessRejected

/-- The command word is accepted: it is held in PENDING, BUSY <- 1, DONE <- 0 (44_control.md R181). The read window
of the command opens (20_memory.md R73). -/
def acceptCommand (w : Word) (s : State) : State :=
  { s with unit := { s.unit with pending := some w, busy := true, done := false }, window := [] }

/-- An ignored write: OVR <- 1 and nothing else (44_control.md R181, R186). -/
def ignoreWrite (s : State) : State := { s with unit := s.unit.setOverrun }

/-- A host write of `v` to CMD, decided at once and not decoded (44_control.md R181). -/
def offerCommand (v : Word) (s : State) : State :=
  if s.unit.busy then ignoreWrite s
  else if s.unit.errv ∧ opcField v ≠ 0xFF then ignoreWrite s
  else acceptCommand v s

/-- A host write to an operand or result register: ignored with OVR while BUSY (44_control.md R186, R189). -/
def offerOperand (r : Reg) (v : Word) (s : State) : State :=
  if s.unit.busy then ignoreWrite s else { s with unit := s.unit.storeOperand r v }

/-- An aligned 32-bit host write of `v` to a register. ID, ERRADDR and 0x3C ignore it without OVR, also while BUSY
(44_control.md R189, log 17). -/
def writeReg (r : Reg) (v : Word) (s : State) : State :=
  match r with
  | .id => s
  | .ctrl => { s with unit := s.unit.writeCtrl v }
  | .status => { s with unit := s.unit.writeStatus v }
  | .cmd => offerCommand v s
  | .addrLo => offerOperand .addrLo v s
  | .addrHi => offerOperand .addrHi v s
  | .len => offerOperand .len v s
  | .sumIn => offerOperand .sumIn v s
  | .accLo => offerOperand .accLo v s
  | .accHi => offerOperand .accHi v s
  | .dataLo => offerOperand .dataLo v s
  | .dataHi => offerOperand .dataHi v s
  | .result => offerOperand .result v s
  | .errAddrLo => s
  | .errAddrHi => s
  | .reserved => s

/-- `HostWrite` (44_control.md R180). -/
def hostWrite (addr : DWord) (width : AccessWidth) (v : Word) (s : State) : Host.Outcome State Fault Refusal :=
  match accessedReg s.platform addr width with
  | .error r => .refused r
  | .ok r => .next (writeReg r v s)

/-- `HostRead` (44_control.md R180, R187): no side effect on the block; the word goes to the host (log 10). -/
def hostRead (addr : DWord) (width : AccessWidth) (s : State) : Host.Outcome State Fault Refusal :=
  match accessedReg s.platform addr width with
  | .error r => .refused r
  | .ok r => .next { s with reads := s.unit.readReg r :: s.reads }

/-- The level on the platform's interrupt line `line`: IRQ where IRQ_ROUTE leads it (60_exceptions.md R210,
R212). -/
def State.irqAt (s : State) (line : Nat) : Bool := (line == s.platform.irqLine) && s.unit.irq

end Sys2Proof.Machine
end

