-- ==== Sys2Proof/Machine/Turn.lean ====
section
/-! DEFINITION. One move of one agent: the block's `Exec` (44_control.md R182) and the events from outside. -/

namespace Sys2Proof.Machine

/-- `Exec` on the accepted word `w`: decode, then run and commit, or fail (44_control.md R182). -/
def execWord (w : Word) (s : State) : Host.Outcome State Fault Refusal :=
  match decode w with
  | .error e => .next (fail e none s)
  | .ok i => exec i s

/-- The block's turn: `Exec` if a command is pending; an idle block waits (44_control.md R180, 70_reset_and_hazards.md
R232). -/
def blockTurn (s : State) : Host.Outcome State Fault Refusal :=
  match s.unit.pending with
  | none => .next s
  | some w => execWord w s

/-- The effect of one event. -/
def takeEvent (e : Event) (s : State) : Host.Outcome State Fault Refusal :=
  match e with
  | .hostWrite addr width v => hostWrite addr width v s
  | .hostRead addr width => hostRead addr width s
  | .blockTurn => blockTurn s
  | .hardwareReset => .next (hardwareReset s)
  | .agentStore addr b => .next (storeReachesMemory addr b s)
  | .hostStore addr b => .next (hostStore addr b s)
  | .storesReach a n => .next (storesReach a n s)
  | .portMap regions => .next (changePort { s.port with regions := regions } s)

end Sys2Proof.Machine
end

