-- ==== Sys2Proof/Machine/Step.lean ====
section
/-! DEFINITION. The step: the next event, or the block's turn when no event is left (log 2). -/

namespace Sys2Proof.Machine

/-- One step of the machine (44_control.md R180). -/
def step (s : State) : Host.Outcome State Fault Refusal :=
  match s.events with
  | [] => blockTurn s
  | e :: rest => takeEvent e { s with events := rest }

/-- `s` with the command word `w` accepted, as the host's write to CMD leaves it (44_control.md R181), and the block
to move next: the block fetches nothing, its commands are register writes (20_memory.md R79, log 1). -/
def State.withFetchWord (s : State) (nbits w : Nat) : State :=
  { acceptCommand (BitVec.ofNat 32 (w % 2 ^ nbits)) s with events := .blockTurn :: s.events }

end Sys2Proof.Machine
end

