-- ==== Sys2Proof/Safety.lean ====
section
/-! DEFINITION. The vocabulary of the claims: the invariant of the block (10_state.md R46 and what it rests on), the
frame of a command, the byte range of a command, and the one's-complement sum the kernels compute (40_accumulator.md
R107). -/

namespace Sys2Proof.Machine

/-! ### The invariant -/

/-- What holds of the block's registers in every state a run reaches: R46's three invariants, and what they rest
on. -/
structure CsumUnit.Inv (u : CsumUnit) : Prop where
  /-- R46: `busy = pending.isSome`. -/
  busyIsPending : u.busy = u.pending.isSome
  /-- R26, R46: DONE and ERRV are never 1 at the same time. -/
  notDoneAndError : ¬(u.done = true ∧ u.errv = true)
  /-- R46: without an error ECODE is 0. -/
  noErrorNoCode : u.errv = false → u.ecode = 0
  /-- 60_exceptions.md R200: an error has one of the codes 1 to 6. -/
  errorHasCode : u.errv = true → 1 ≤ u.ecode.toNat ∧ u.ecode.toNat ≤ 6
  /-- 44_control.md R181: acceptance clears DONE. -/
  runningNotDone : u.busy = true → u.done = false
  /-- 44_control.md R181: with ERRV = 1 only OPC 0xFF is accepted. -/
  errorRunsOnlySrst : ∀ w, u.pending = some w → u.errv = true → w.toNat % 256 = 0xFF

/-- The invariant of the machine: the block's, memory in canonical form now and in the read window, and no window
without a running command. -/
structure State.Inv (s : State) : Prop where
  block : s.unit.Inv
  memory : Memory.wf s.port.mem = true
  windowMemory : ∀ p ∈ s.window, Memory.wf p.mem = true
  windowOnlyWhileRunning : s.unit.pending = none → s.window = []

/-! ### Moves -/

/-- The block moves next: its turn is the next event, or no event is left. -/
def State.BlockMoves (s : State) : Prop := s.events = [] ∨ s.events.head? = some .blockTurn

/-- The state with its next event taken off. -/
def State.afterMove (s : State) : State := { s with events := s.events.tail }

/-- One meaning after another, stopping where one stops. -/
def andThen (o : Host.Outcome State Fault Refusal) (f : State → Host.Outcome State Fault Refusal) :
    Host.Outcome State Fault Refusal :=
  match o with
  | .next s => f s
  | .fault r => .fault r
  | .refused r => .refused r

/-! ### Frames -/

/-- Nothing outside the block has changed: every byte of memory reads as before, the port answers as before, and the
schedule, the platform and the host's own data are as before. (The counter of the free values is not named.) -/
structure Kept (s t : State) : Prop where
  memory : ∀ a, Memory.read t.port.mem a = Memory.read s.port.mem a
  regions : t.port.regions = s.port.regions
  unseen : t.unseen = s.unseen
  platform : t.platform = s.platform
  events : t.events = s.events
  reads : t.reads = s.reads

/-- `t` is `s` after the commit of a command whose updates, applied to the block, give `u` (44_control.md R184). -/
structure Committed (s t : State) (u : CsumUnit) : Prop where
  block : t.unit = { u with pending := none, busy := false, done := true }
  window : t.window = []
  rest : Kept s t

/-- `t` is `s` after a command failed with ECODE `code` and left `errAddr` in ERRADDR (44_control.md R185): no other
register has changed. -/
structure Failed (s t : State) (code : BitVec 4) (errAddr : DWord) : Prop where
  block : t.unit = { s.unit with
    errv := true, ecode := code, errAddr := errAddr, pending := none, busy := false }
  window : t.window = []
  rest : Kept s t

/-- The encoding and the RESERVED rule of a command whose word is `x` alone: `x` is its word, and every other word
with its opcode, run by the block, fails with RESERVED (ECODE 2) and has no other effect. -/
structure OnlyWord (i : Instr) (x : Word) : Prop where
  encoded : encode i = x
  decoded : decode x = .ok i
  others : ∀ w : Word, w.toNat % 256 = x.toNat % 256 → w ≠ x →
    ∀ s : State, s.BlockMoves → s.unit.pending = some w →
      ∃ t, step s = .next t ∧ Failed s.afterMove t 2 s.unit.errAddr

/-! ### Byte ranges -/

/-- The number of bytes a command reads (20_memory.md R67). -/
def byteCount (i : Instr) (u : CsumUnit) : Nat :=
  match i with
  | .init => 0
  | .add => 0
  | .adc => 0
  | .adc0 => 0
  | .fold64 => 0
  | .fold32 => 0
  | .swap16 => 0
  | .ldw n => n.toNat
  | .csum => u.len.toNat
  | .csum40 _ => 40
  | .srst => 0

/-- The range `[addr, addr + n)` may be read: it does not wrap (20_memory.md R70), it lies in ordinary memory (R69),
and the port answers every byte (44_control.md R193). -/
structure State.Ordinary (s : State) (addr : DWord) (n : Nat) : Prop where
  inSpace : addr.toNat + n ≤ 2 ^ 64
  noSideEffect : s.hasSideEffects addr n = false
  answered : s.rangeTouches .silent addr n = false

/-- The port accepts every read of the range (20_memory.md R60). -/
def State.Accepts (s : State) (addr : DWord) (n : Nat) : Prop :=
  ∀ k < n, (s.answer (addr.toNat + k)).isSome = true

/-- `rd` gives the bytes of the range as the port answers them. -/
def State.Bytes (s : State) (rd : DWord → Byte) (addr : DWord) (n : Nat) : Prop :=
  ∀ k < n, s.answer (addr.toNat + k) = some (rd (addr + BitVec.ofNat 64 k))

/-- A command that reads memory, whose operand checks pass: LDW with a count of 1 to 8 (42_loader.md R141), CSUM with
a length that is not negative (43_kernel.md R152), CSUM40. -/
def MemoryCommand (i : Instr) (u : CsumUnit) : Prop :=
  match i with
  | .init => False
  | .add => False
  | .adc => False
  | .adc0 => False
  | .fold64 => False
  | .fold32 => False
  | .swap16 => False
  | .ldw n => 1 ≤ n.toNat ∧ n.toNat ≤ 8
  | .csum => u.len.toNat < 2 ^ 31
  | .csum40 _ => True
  | .srst => False

/-- The block with the updates of a memory command applied, the bytes of its range being those `rd` gives
(42_loader.md R141, 43_kernel.md R151, R160). -/
def memoryResult (i : Instr) (rd : DWord → Byte) (u : CsumUnit) : CsumUnit :=
  match i with
  | .init => u
  | .add => u
  | .adc => u
  | .adc0 => u
  | .fold64 => u
  | .fold32 => u
  | .swap16 => u
  | .ldw n => { u with data := loadTail rd u.addr n.toNat }
  | .csum => { u with result := csumPartial rd u.addr u.len.toNat u.sumIn }
  | .csum40 _ => { u with result := csumPartial rd u.addr 40 u.sumIn }
  | .srst => u

/-! ### Command words as numbers -/

/-- The assigned opcodes (30_encoding.md R83). -/
def opcodeNumbers : List Nat := [0x01, 0x02, 0x03, 0x04, 0x10, 0x11, 0x12, 0x20, 0x30, 0x31, 0xFF]

/-- The encoded words of R83's table. -/
def tableWord : Instr → Nat
  | .init => 0x00000001
  | .add => 0x00000002
  | .adc => 0x00000003
  | .adc0 => 0x00000004
  | .fold64 => 0x00000010
  | .fold32 => 0x00000011
  | .swap16 => 0x00000012
  | .ldw n => 0x00000020 + 0x100 * n.toNat
  | .csum => 0x00000030
  | .csum40 .seq => 0x00000031
  | .csum40 .dual => 0x00000131
  | .csum40 .flagpair => 0x00000231
  | .csum40 .tree => 0x00000331
  | .srst => 0x000000FF

/-- OPC, IMM and RSV of a command word as numbers (30_encoding.md R80). -/
def opcNumber (w : Word) : Nat := w.toNat % 0x100
def immNumber (w : Word) : Nat := w.toNat / 0x100 % 0x10
def rsvNumber (w : Word) : Nat := w.toNat / 0x1000

/-- A set reserved bit in a word with an assigned opcode (30_encoding.md R82, R87). -/
def ReservedBitSet (w : Word) : Prop :=
  rsvNumber w ≠ 0 ∨ (opcNumber w = 0x31 ∧ 4 ≤ immNumber w) ∨
    (opcNumber w ≠ 0x20 ∧ opcNumber w ≠ 0x31 ∧ immNumber w ≠ 0)

/-- An LDW word with an illegal count (30_encoding.md R82). -/
def BadCount (w : Word) : Prop := opcNumber w = 0x20 ∧ (immNumber w = 0 ∨ 8 < immNumber w)

/-- The number of bytes the command of a word reads (20_memory.md R67). -/
def wordByteCount (w : Word) (u : CsumUnit) : Nat :=
  if opcNumber w = 0x20 then immNumber w
  else if opcNumber w = 0x30 then u.len.toNat
  else if opcNumber w = 0x31 then 40
  else 0

/-- `OperandError w u code a`: of the errors that depend on the command word and the registers alone, `code` is the
first that applies, in the order ILLEGAL, RESERVED, BAD_COUNT, BAD_LENGTH, RANGE, and `a` is what ERRADDR then holds
(60_exceptions.md R200, R204). -/
inductive OperandError (w : Word) (u : CsumUnit) : BitVec 4 → DWord → Prop where
  | illegal (h1 : opcNumber w ∉ opcodeNumbers) : OperandError w u 1 u.errAddr
  | reserved (h1 : opcNumber w ∈ opcodeNumbers) (h2 : ReservedBitSet w) : OperandError w u 2 u.errAddr
  | badCount (h1 : opcNumber w ∈ opcodeNumbers) (h2 : ¬ReservedBitSet w) (h3 : BadCount w) :
      OperandError w u 4 u.errAddr
  | badLength (h1 : opcNumber w ∈ opcodeNumbers) (h2 : ¬ReservedBitSet w) (h3 : ¬BadCount w)
      (h4 : opcNumber w = 0x30 ∧ 2 ^ 31 ≤ u.len.toNat) : OperandError w u 3 u.errAddr
  | range (h1 : opcNumber w ∈ opcodeNumbers) (h2 : ¬ReservedBitSet w) (h3 : ¬BadCount w)
      (h4 : ¬(opcNumber w = 0x30 ∧ 2 ^ 31 ≤ u.len.toNat)) (h5 : 2 ^ 64 < u.addr.toNat + wordByteCount w u) :
      OperandError w u 5 u.addr

/-! ### Host accesses -/

/-- The next move is an aligned 32-bit host write of `v` at offset `off` of the register block. -/
def State.HostWrites (s : State) (off : Nat) (v : Word) : Prop :=
  ∃ addr, s.events.head? = some (.hostWrite addr .bits32 v) ∧ addr.toNat = s.platform.regBase.toNat + off

/-- The next move is an aligned 32-bit host read at offset `off` of the register block. -/
def State.HostReads (s : State) (off : Nat) : Prop :=
  ∃ addr, s.events.head? = some (.hostRead addr .bits32) ∧ addr.toNat = s.platform.regBase.toNat + off

/-- A host write of `v` at offset `off` completes and leaves the block as `u`, with nothing else changed. -/
def WriteGives (s : State) (off : Nat) (v : Word) (u : CsumUnit) : Prop :=
  s.HostWrites off v → ∃ t, step s = .next t ∧ t.unit = u ∧ t.window = s.window ∧ Kept s.afterMove t

/-- STATUS as a number (10_state.md R26). -/
def statusNumber (u : CsumUnit) : Nat :=
  u.busy.toNat + 2 * u.done.toNat + 4 * u.errv.toNat + 8 * u.ovr.toNat + 16 * u.cf.toNat
    + 256 * (if u.errv then u.ecode.toNat else 0)

/-- What a read of each offset of the register block returns, as a number (10_state.md R24). -/
def registerNumbers (u : CsumUnit) : List (Nat × Nat) :=
  [(0x00, 0x43530001), (0x04, u.ie.toNat), (0x08, statusNumber u), (0x0C, 0),
   (0x10, u.addr.toNat % 2 ^ 32), (0x14, u.addr.toNat / 2 ^ 32), (0x18, u.len.toNat), (0x1C, u.sumIn.toNat),
   (0x20, u.acc.toNat % 2 ^ 32), (0x24, u.acc.toNat / 2 ^ 32), (0x28, u.data.toNat % 2 ^ 32),
   (0x2C, u.data.toNat / 2 ^ 32), (0x30, u.result.toNat), (0x34, u.errAddr.toNat % 2 ^ 32),
   (0x38, u.errAddr.toNat / 2 ^ 32), (0x3C, 0)]

/-! ### Sums -/

/-- `ocsum_B(N)`: the one's-complement sum of width B with the integer value N (40_accumulator.md R107). -/
def ocsum (B N : Nat) : Nat := if N = 0 then 0 else (N - 1) % (2 ^ B - 1) + 1

/-- The integer sum of `len` bytes from `addr` on, each at its place in an 8-byte word (43_kernel.md R154). -/
def byteSum (rd : DWord → Byte) (addr : DWord) (len : Nat) : Nat :=
  ∑ j ∈ Finset.range len, (rd (addr + BitVec.ofNat 64 j)).toNat * 2 ^ (8 * (j % 8))

/-- The host writes DATA between two commands. -/
def loadData (w : DWord) (s : State) : State := { s with unit := { s.unit with data := w } }

/-- ADC over each word in turn, DATA written before each (40_accumulator.md R107). -/
def adcEach : List DWord → State → Host.Outcome State Fault Refusal
  | [], s => .next s
  | w :: ws, s => andThen (exec .adc (loadData w s)) (adcEach ws)

/-- A closed chain over `w0 :: ws`: ADD, the ADCs, ADC0 (40_accumulator.md R107). -/
def closedChain (w0 : DWord) (ws : List DWord) (s : State) : Host.Outcome State Fault Refusal :=
  andThen (exec .add (loadData w0 s)) (fun t => andThen (adcEach ws t) (exec .adc0))

end Sys2Proof.Machine
end

