-- ==== Sys2Proof/Certificates/Slice0/Obligations.lean ====
section
/-! DEFINITION. The statements for the provers, by file of spec/. A frame says what a command leaves unchanged:
`Committed` and `Failed` give every register of the block, and `Kept` every byte of memory and all else outside the
block. -/

open Sys2Proof Sys2Proof.Machine

/-! ### 30_encoding.md -/

/-- R83: the words of the opcode table decode to their commands. -/
def Obligations.OpcodeTableWordsDecode : Prop :=
  decode 0x00000001 = .ok .init ∧ decode 0x00000002 = .ok .add ∧ decode 0x00000003 = .ok .adc ∧
  decode 0x00000004 = .ok .adc0 ∧ decode 0x00000010 = .ok .fold64 ∧ decode 0x00000011 = .ok .fold32 ∧
  decode 0x00000012 = .ok .swap16 ∧ decode 0x00000120 = .ok (.ldw 1) ∧ decode 0x00000820 = .ok (.ldw 8) ∧
  decode 0x00000030 = .ok .csum ∧ decode 0x00000031 = .ok (.csum40 .seq) ∧
  decode 0x00000131 = .ok (.csum40 .dual) ∧ decode 0x00000231 = .ok (.csum40 .flagpair) ∧
  decode 0x00000331 = .ok (.csum40 .tree) ∧ decode 0x000000FF = .ok .srst

/-- Decoding and encoding are inverse: every well-formed command is decoded from its word, the word is the one of
R83's table, and a word that decodes to a command is that command's word, so each word has one meaning. -/
def Obligations.DecodeAndEncodeAreInverse : Prop :=
  (∀ i : Instr, i.WellFormed → decode (encode i) = .ok i ∧ (encode i).toNat = tableWord i) ∧
  (∀ (w : Word) (i : Instr), decode w = .ok i → i.WellFormed ∧ encode i = w)

/-- R84: decoding is total, reports the first failing check in the order of the rule, and before a failing word has
had any other effect the command fails with that error. -/
def Obligations.DecodeReportsTheFirstFailingCheck : Prop :=
  ∀ w : Word,
    (decode w = .error .illegal ↔ opcNumber w ∉ opcodeNumbers) ∧
    (decode w = .error .reserved ↔ opcNumber w ∈ opcodeNumbers ∧ ReservedBitSet w) ∧
    (decode w = .error .badCount ↔ ¬ReservedBitSet w ∧ BadCount w) ∧
    (∀ i, decode w = .ok i ↔ i.WellFormed ∧ w.toNat = tableWord i) ∧
    (∀ e, decode w = .error e → e = .illegal ∨ e = .reserved ∨ e = .badCount) ∧
    (∀ (s : State) (e : ErrCode) (code : BitVec 4), s.BlockMoves → s.unit.pending = some w → decode w = .error e →
      (e, code) ∈ [(ErrCode.illegal, (1 : BitVec 4)), (.reserved, 2), (.badCount, 4)] →
      ∃ t, step s = .next t ∧ Failed s.afterMove t code s.unit.errAddr)

/-- R85: each of the 245 unassigned opcodes fails with ILLEGAL, whatever its IMM and RSV bits, and has no other
effect. -/
def Obligations.UnassignedOpcodesFailAsIllegal : Prop :=
  let unassigned : Nat → Bool := fun n =>
    n == 0 || (5 ≤ n && n ≤ 0x0F) || (0x13 ≤ n && n ≤ 0x1F) || (0x21 ≤ n && n ≤ 0x2F) || (0x32 ≤ n && n ≤ 0xFE)
  ((List.range 256).filter unassigned).length = 245 ∧
  ∀ (s : State) (w : Word), unassigned (w.toNat % 256) = true → s.BlockMoves → s.unit.pending = some w →
    ∃ t, step s = .next t ∧ Failed s.afterMove t 1 s.unit.errAddr

/-! ### 44_control.md -/

/-- R182, the block's own move: when a command is pending and the block moves, the step is the meaning of the decoded
command, or the failure of a word that does not decode, at the state with the move taken off the schedule. -/
def Obligations.StepRunsTheDecodedCommand : Prop :=
  ∀ (s : State) (w : Word), s.BlockMoves → s.unit.pending = some w →
    (∀ i, decode w = .ok i → step s = exec i s.afterMove) ∧
    (∀ e, decode w = .error e → step s = .next (fail e none s.afterMove))

/-- R181: a write to CMD is accepted, or ignored with OVR, at once and whatever its word decodes to; a malformed
SRST, once accepted, fails with RESERVED. -/
def Obligations.CommandWriteIsAcceptedOrIgnored : Prop :=
  OnlyWord .srst 0x000000FF ∧
  ∀ (s : State) (v : Word),
    (s.unit.busy = true → WriteGives s 0x0C v { s.unit with ovr := true }) ∧
    (s.unit.busy = false → s.unit.errv = true → v.toNat % 256 ≠ 0xFF →
      WriteGives s 0x0C v { s.unit with ovr := true }) ∧
    (s.unit.busy = false → (s.unit.errv = true → v.toNat % 256 = 0xFF) → s.HostWrites 0x0C v →
      ∃ t, step s = .next t ∧ t.unit = { s.unit with pending := some v, busy := true, done := false } ∧
        t.window = [] ∧ Kept s.afterMove t)

/-- R186: while BUSY, writes to the operand and result registers and to CMD are ignored with OVR; writes to CTRL and
STATUS take effect. -/
def Obligations.BusyWritesAreIgnored : Prop :=
  ∀ (s : State) (v : Word), s.unit.busy = true →
    (∀ off ∈ [0x0C, 0x10, 0x14, 0x18, 0x1C, 0x20, 0x24, 0x28, 0x2C, 0x30],
      WriteGives s off v { s.unit with ovr := true }) ∧
    WriteGives s 0x04 v { s.unit with ie := decide (v.toNat % 2 = 1) } ∧
    WriteGives s 0x08 v { s.unit with
      done := s.unit.done && decide (v.toNat / 2 % 2 = 0)
      errv := s.unit.errv && decide (v.toNat / 4 % 2 = 0)
      ecode := if v.toNat / 4 % 2 = 1 then 0 else s.unit.ecode
      ovr := s.unit.ovr && decide (v.toNat / 8 % 2 = 0) }

/-- R189: while idle, a write is stored in its register, or in the named half of a 64-bit register whose other half
stays; ID, ERRADDR and 0x3C ignore it; CTRL keeps bit 0. -/
def Obligations.IdleWritesAreStored : Prop :=
  ∀ (s : State) (v : Word), s.unit.busy = false →
    (∀ x : DWord, x.toNat = s.unit.addr.toNat / 2 ^ 32 * 2 ^ 32 + v.toNat →
      WriteGives s 0x10 v { s.unit with addr := x }) ∧
    (∀ x : DWord, x.toNat = v.toNat * 2 ^ 32 + s.unit.addr.toNat % 2 ^ 32 →
      WriteGives s 0x14 v { s.unit with addr := x }) ∧
    WriteGives s 0x18 v { s.unit with len := v } ∧
    WriteGives s 0x1C v { s.unit with sumIn := v } ∧
    (∀ x : DWord, x.toNat = s.unit.acc.toNat / 2 ^ 32 * 2 ^ 32 + v.toNat →
      WriteGives s 0x20 v { s.unit with acc := x }) ∧
    (∀ x : DWord, x.toNat = v.toNat * 2 ^ 32 + s.unit.acc.toNat % 2 ^ 32 →
      WriteGives s 0x24 v { s.unit with acc := x }) ∧
    (∀ x : DWord, x.toNat = s.unit.data.toNat / 2 ^ 32 * 2 ^ 32 + v.toNat →
      WriteGives s 0x28 v { s.unit with data := x }) ∧
    (∀ x : DWord, x.toNat = v.toNat * 2 ^ 32 + s.unit.data.toNat % 2 ^ 32 →
      WriteGives s 0x2C v { s.unit with data := x }) ∧
    WriteGives s 0x30 v { s.unit with result := v } ∧
    (∀ off ∈ [0x00, 0x34, 0x38, 0x3C], WriteGives s off v s.unit) ∧
    WriteGives s 0x04 v { s.unit with ie := decide (v.toNat % 2 = 1) } ∧
    WriteGives s 0x08 v { s.unit with
      done := s.unit.done && decide (v.toNat / 2 % 2 = 0)
      errv := s.unit.errv && decide (v.toNat / 4 % 2 = 0)
      ecode := if v.toNat / 4 % 2 = 1 then 0 else s.unit.ecode
      ovr := s.unit.ovr && decide (v.toNat / 8 % 2 = 0) }

/-- R187: a host read at any time returns the register's value by the register map and has no side effect. -/
def Obligations.HostReadsReturnTheRegisters : Prop :=
  ∀ (s : State) (off value : Nat), (off, value) ∈ registerNumbers s.unit → s.HostReads off →
    ∃ (t : State) (v : Word), step s = .next t ∧ v.toNat = value ∧ t.reads = v :: s.reads ∧
      t.unit = s.unit ∧ t.window = s.window ∧ t.port = s.port ∧ t.platform = s.platform ∧ t.unseen = s.unseen ∧
      t.events = s.events.tail

/-- R188: an access to the register block that is not an aligned 32-bit access is refused. -/
def Obligations.OtherAccessesAreRefused : Prop :=
  ∀ (s : State) (addr : DWord) (off : Nat) (width : AccessWidth),
    addr.toNat = s.platform.regBase.toNat + off → off < 64 → (width ≠ .bits32 ∨ off % 4 ≠ 0) →
    (∀ v, s.events.head? = some (.hostWrite addr width v) → step s = .refused .registerAccessRejected) ∧
    (s.events.head? = some (.hostRead addr width) → step s = .refused .registerAccessRejected)

/-- R183: a command other than SRST ends by a commit that leaves the error state, OVR, CTRL and the operand registers
ADDR, LEN and SUM_IN alone, or by a failure that changes STATUS and, for RANGE and BUS, ERRADDR alone. -/
def Obligations.CommandsEndByCommitOrFailure : Prop :=
  ∀ (i : Instr) (s t : State), i ≠ .srst → exec i s = .next t →
    (∃ u : CsumUnit, Committed s t u ∧ u.ie = s.unit.ie ∧ u.errv = s.unit.errv ∧ u.ecode = s.unit.ecode ∧
      u.ovr = s.unit.ovr ∧ u.errAddr = s.unit.errAddr ∧ u.addr = s.unit.addr ∧ u.len = s.unit.len ∧
      u.sumIn = s.unit.sumIn) ∨
    (∃ code errAddr, Failed s t code errAddr ∧ (errAddr = s.unit.errAddr ∨ code = 5 ∨ code = 6))

/-- R190: SRST gives every register its reset value and touches nothing else; its one word is 0x0000_00FF; it is
accepted while ERRV = 1 and not while BUSY. -/
def Obligations.SrstResetsEveryRegister : Prop :=
  OnlyWord .srst 0x000000FF ∧
  (∀ s : State, ∃ t, exec .srst s = .next t ∧ Kept s t ∧ t.window = [] ∧
    t.unit = { ie := false, busy := false, done := false, errv := false, ovr := false, ecode := 0, cf := false,
               addr := 0, len := 0, sumIn := 0, acc := 0, data := 0, result := 0, errAddr := 0, pending := none }) ∧
  (∀ s : State, s.unit.busy = false → s.HostWrites 0x0C 0xFF →
    ∃ t, step s = .next t ∧ t.unit.pending = some 0xFF ∧ t.unit.busy = true) ∧
  (∀ s : State, s.unit.busy = true → WriteGives s 0x0C 0xFF { s.unit with ovr := true })

/-- R192: while a command runs, no move but the block's own and the hardware reset ends it, and none changes an
operand, a result, CF or ERRADDR. -/
def Obligations.OnlyResetStopsARunningCommand : Prop :=
  ∀ (s t : State) (w : Word) (e : Event), s.unit.pending = some w → s.unit.busy = true →
    s.events.head? = some e → e ≠ .blockTurn → e ≠ .hardwareReset → step s = .next t →
    t.unit = { s.unit with
      ie := t.unit.ie, done := t.unit.done, errv := t.unit.errv, ecode := t.unit.ecode, ovr := t.unit.ovr }

/-- R193: an accepted command completes in one move of the block, by commit or failure, if its range lies in ordinary
memory and the port answers every read. -/
def Obligations.AcceptedCommandsComplete : Prop :=
  ∀ (s : State) (w : Word), s.BlockMoves → s.unit.pending = some w →
    s.hasSideEffects s.unit.addr (wordByteCount w s.unit) = false →
    s.rangeTouches .silent s.unit.addr (wordByteCount w s.unit) = false →
    ∃ t, step s = .next t ∧ t.unit.pending = none ∧ t.unit.busy = false ∧ t.window = []

/-! ### 10_state.md -/

/-- R25: CTRL keeps bit 0 alone, at any time, without OVR, and its other bits read 0. -/
def Obligations.CtrlKeepsBitZero : Prop :=
  ∀ (s : State) (v : Word),
    WriteGives s 0x04 v { s.unit with ie := decide (v.toNat % 2 = 1) } ∧
    (s.HostReads 0x04 → ∃ t x, step s = .next t ∧ t.reads = x :: s.reads ∧ x.toNat = s.unit.ie.toNat)

/-- R27: a write to STATUS clears DONE, ERRV with ECODE, and OVR, as bits 1, 2 and 3 say, at any time, and does
nothing else. -/
def Obligations.StatusWriteClearsWhatItNames : Prop :=
  ∀ (s : State) (v : Word),
    WriteGives s 0x08 v { s.unit with
      done := if v.toNat / 2 % 2 = 1 then false else s.unit.done
      errv := if v.toNat / 4 % 2 = 1 then false else s.unit.errv
      ecode := if v.toNat / 4 % 2 = 1 then 0 else s.unit.ecode
      ovr := if v.toNat / 8 % 2 = 1 then false else s.unit.ovr }

/-- R31: CF changes only in the block's move under INIT, ADD, ADC, ADC0 or SRST, and by the hardware reset. -/
def Obligations.CarryFlagHasFiveWritersAndReset : Prop :=
  ∀ s t : State, step s = .next t → t.unit.cf ≠ s.unit.cf →
    (s.BlockMoves ∧ ∃ w, s.unit.pending = some w ∧
      (decode w = .ok .init ∨ decode w = .ok .add ∨ decode w = .ok .adc ∨ decode w = .ok .adc0 ∨
        decode w = .ok .srst)) ∨
    s.events.head? = some .hardwareReset

/-- R37: ERRADDR changes only when a command fails with RANGE, which records ADDR, or BUS, which records an address of
the command's range; SRST and the hardware reset clear it. -/
def Obligations.ErraddrIsWrittenByRangeAndBusAlone : Prop :=
  ∀ s t : State, step s = .next t → t.unit.errAddr ≠ s.unit.errAddr →
    (s.BlockMoves ∧ t.unit.errv = true ∧
      ((t.unit.ecode = 5 ∧ t.unit.errAddr = s.unit.addr) ∨
       (t.unit.ecode = 6 ∧ ∃ w k, s.unit.pending = some w ∧ k < wordByteCount w s.unit ∧
          t.unit.errAddr.toNat = s.unit.addr.toNat + k))) ∨
    t.unit = CsumUnit.reset

/-- R45: the values every register has in the state right after reset, after SRST and after a hardware reset, and the
constant of ID. -/
def Obligations.ResetValues : Prop :=
  let zero : CsumUnit :=
    { ie := false, busy := false, done := false, errv := false, ovr := false, ecode := 0, cf := false,
      addr := 0, len := 0, sumIn := 0, acc := 0, data := 0, result := 0, errAddr := 0, pending := none }
  State.reset.unit = zero ∧
  (∀ s : State, ∃ t, exec .srst s = .next t ∧ t.unit = zero) ∧
  (∀ s : State, s.events.head? = some .hardwareReset → ∃ t, step s = .next t ∧ t.unit = zero) ∧
  (∀ u : CsumUnit, (u.readReg .id).toNat = 0x43530001)

/-- The invariant holds at reset. -/
def Obligations.ResetMeetsTheInvariant : Prop := State.reset.Inv

/-- R46's invariants, and what they rest on, are kept by every step from every state that meets them. -/
def Obligations.EveryStepKeepsTheInvariant : Prop :=
  ∀ s t : State, s.Inv → step s = .next t → t.Inv

/-- No step changes the platform's fixed parameters (the model's own choice, log 3). -/
def Obligations.PlatformNeverChanges : Prop :=
  ∀ s t : State, step s = .next t → t.platform = s.platform

/-! ### 20_memory.md -/

/-- R61: no command writes memory, and no move of the block does. -/
def Obligations.TheBlockNeverWritesMemory : Prop :=
  (∀ (i : Instr) (s t : State), exec i s = .next t → ∀ a, Memory.read t.port.mem a = Memory.read s.port.mem a) ∧
  (∀ s t : State, s.BlockMoves → step s = .next t → ∀ a, Memory.read t.port.mem a = Memory.read s.port.mem a)

/-- R62: `MemRead(a, n)` has the byte at a + k as its byte k, and nothing above. -/
def Obligations.MemReadIsLittleEndian : Prop :=
  ∀ (rd : DWord → Byte) (a : DWord) (n : Nat), 1 ≤ n → n ≤ 8 →
    (memRead rd a n).toNat = ∑ k ∈ Finset.range n, (rd (a + BitVec.ofNat 64 k)).toNat * 2 ^ (8 * k) ∧
    (∀ k < n, (memRead rd a n).toNat / 2 ^ (8 * k) % 256 = (rd (a + BitVec.ofNat 64 k)).toNat) ∧
    (memRead rd a n).toNat < 2 ^ (8 * n)

/-- R67: a command's outcome depends on the bytes of its range and on no other byte, and it does depend on whether
each byte of its range can be read. -/
def Obligations.CommandsReadExactlyTheirRange : Prop :=
  (∀ (i : Instr) (s : State) (mem : Memory),
    (∀ k < byteCount i s.unit,
      Memory.read mem (s.unit.addr.toNat + k) = Memory.read s.port.mem (s.unit.addr.toNat + k)) →
    ∀ t, exec i s = .next t →
      exec i { s with port := { s.port with mem := mem } } =
        .next { t with port := { t.port with mem := mem } }) ∧
  (∀ (i : Instr) (s : State) (k : Nat), MemoryCommand i s.unit → s.Ordinary s.unit.addr (byteCount i s.unit) →
    k < byteCount i s.unit → s.answer (s.unit.addr.toNat + k) = none →
    ∃ t a, exec i s = .next t ∧ Failed s t 6 a)

/-- R69 and 93_implementation_defined.md P6: a memory command whose range does not wrap is refused if it touches a
region with read side effects or the block's own registers, and stops if it touches a region the port never answers
(logs 5 and 6). -/
def Obligations.RangesOutsideOrdinaryMemoryStop : Prop :=
  ∀ (i : Instr) (s : State), MemoryCommand i s.unit → s.unit.addr.toNat + byteCount i s.unit ≤ 2 ^ 64 →
    (∀ (r : Region) (k : Nat), k < byteCount i s.unit → r ∈ s.port.regions → r.kind = .device →
      r.base ≤ s.unit.addr.toNat + k → s.unit.addr.toNat + k < r.base + r.size →
      exec i s = .refused .sideEffectRange) ∧
    (∀ k < byteCount i s.unit, s.platform.regBase.toNat ≤ s.unit.addr.toNat + k →
      s.unit.addr.toNat + k < s.platform.regBase.toNat + 64 → exec i s = .refused .sideEffectRange) ∧
    (∀ (r : Region) (k : Nat), k < byteCount i s.unit → r ∈ s.port.regions → r.kind = .silent →
      r.base ≤ s.unit.addr.toNat + k → s.unit.addr.toNat + k < r.base + r.size →
      s.hasSideEffects s.unit.addr (byteCount i s.unit) = false → exec i s = .fault .portNeverAnswers)

/-- R74: each byte a command uses is one the port held during the read window, drawn for each byte on its own, and the
result is the command's function of those bytes; a store while the command runs leaves both values readable. -/
def Obligations.RacingStoresGiveOldOrNewBytes : Prop :=
  (∀ (i : Instr) (s t : State), MemoryCommand i s.unit → s.unit.errv = false → exec i s = .next t →
    t.unit.errv = false →
    ∃ rd : DWord → Byte,
      (∀ k < byteCount i s.unit, ∃ p ∈ s.images,
        p.answer (s.unit.addr.toNat + k) = some (rd (s.unit.addr + BitVec.ofNat 64 k))) ∧
      Committed s t (memoryResult i rd s.unit)) ∧
  (∀ (s : State) (a : DWord) (b : Byte) (w : Word), s.unit.pending = some w →
    s.events.head? = some (.agentStore a b) →
    ∃ t, step s = .next t ∧ t.unit = s.unit ∧ t.images = t.port :: s.images)

/-- Stores of other agents change the one byte they name; a host store does so at once when COHERENT, and else when
the platform makes it visible (20_memory.md, ordering; the events are the model's own, log 11). -/
def Obligations.StoresChangeOneByteOfMemory : Prop :=
  ∀ (s : State) (a : DWord) (b : Byte), Memory.wf s.port.mem = true →
    (s.events.head? = some (.agentStore a b) ∨
        (s.events.head? = some (.hostStore a b) ∧ s.platform.coherent = true) →
      ∃ t, step s = .next t ∧ t.unit = s.unit ∧ Memory.read t.port.mem a.toNat = b ∧
        ∀ x, x ≠ a.toNat → Memory.read t.port.mem x = Memory.read s.port.mem x) ∧
    (s.events.head? = some (.hostStore a b) → s.platform.coherent = false →
      ∃ t, step s = .next t ∧ t.unit = s.unit ∧ t.unseen = s.unseen ++ [(a, b)] ∧
        ∀ x, Memory.read t.port.mem x = Memory.read s.port.mem x) ∧
    (∀ base n, s.events.head? = some (.storesReach base n) → base ≤ a.toNat → a.toNat < base + n →
      (∃ earlier, s.unseen = earlier ++ [(a, b)]) →
      ∃ t, step s = .next t ∧ t.unit = s.unit ∧ Memory.read t.port.mem a.toNat = b ∧ (a, b) ∉ t.unseen)

/-! ### 60_exceptions.md -/

/-- R201 and R204: the first operand error that applies, in the order of the rule, is the one recorded, before any
memory read and whatever memory holds; where none applies, BUS is the only error left. -/
def Obligations.ErrorsFollowTheirPriority : Prop :=
  ∀ (s : State) (w : Word), s.BlockMoves → s.unit.pending = some w →
    (∀ code a, OperandError w s.unit code a → ∃ t, step s = .next t ∧ Failed s.afterMove t code a) ∧
    (∀ t, (∀ code a, ¬OperandError w s.unit code a) → s.unit.errv = false → step s = .next t →
      t.unit.errv = true → t.unit.ecode = 6)

/-- R203: BUS when the port rejects at least one byte of the range; ERRADDR is the address of a rejected byte, and no
result is written. -/
def Obligations.BusErrorRecordsARejectedAddress : Prop :=
  ∀ (i : Instr) (s : State) (k : Nat), MemoryCommand i s.unit → s.Ordinary s.unit.addr (byteCount i s.unit) →
    k < byteCount i s.unit → s.answer (s.unit.addr.toNat + k) = none →
    ∃ (t : State) (a : DWord) (j : Nat), exec i s = .next t ∧ Failed s t 6 a ∧ j < byteCount i s.unit ∧
      a.toNat = s.unit.addr.toNat + j ∧ s.answer a.toNat = none

/-- R210: IRQ is CTRL.IE and (STATUS.DONE or STATUS.ERRV), read off the two registers, and holds no state. -/
def Obligations.IrqIsAFunctionOfCtrlAndStatus : Prop :=
  ∀ u : CsumUnit, u.irq = true ↔
    (u.readReg .ctrl).toNat % 2 = 1 ∧
      ((u.readReg .status).toNat / 2 % 2 = 1 ∨ (u.readReg .status).toNat / 4 % 2 = 1)

/-- R211: the ways IRQ is cleared or masked. -/
def Obligations.IrqIsClearedInFiveWays : Prop :=
  ∀ s : State,
    (∀ v : Word, v.toNat / 2 % 2 = 1 → v.toNat / 4 % 2 = 1 → s.HostWrites 0x08 v →
      ∃ t, step s = .next t ∧ t.unit.irq = false) ∧
    (∀ v : Word, s.unit.busy = false → (s.unit.errv = true → v.toNat % 256 = 0xFF) → s.HostWrites 0x0C v →
      ∃ t, step s = .next t ∧ t.unit.done = false ∧ t.unit.errv = s.unit.errv) ∧
    (∃ t, exec .srst s = .next t ∧ t.unit.irq = false) ∧
    (s.events.head? = some .hardwareReset → ∃ t, step s = .next t ∧ t.unit.irq = false) ∧
    (∀ v : Word, v.toNat % 2 = 0 → s.HostWrites 0x04 v →
      ∃ t, step s = .next t ∧ t.unit.irq = false ∧ t.unit.done = s.unit.done ∧ t.unit.errv = s.unit.errv)

/-! ### 70_reset_and_hazards.md -/

/-- R230: the hardware reset gives every register its reset value, abandons a running command and drops IRQ. -/
def Obligations.HardwareResetAbandonsTheCommand : Prop :=
  ∀ s : State, s.events.head? = some .hardwareReset →
    ∃ t, step s = .next t ∧ Kept s.afterMove t ∧ t.window = [] ∧ t.unit.irq = false ∧
      t.unit = { ie := false, busy := false, done := false, errv := false, ovr := false, ecode := 0, cf := false,
                 addr := 0, len := 0, sumIn := 0, acc := 0, data := 0, result := 0, errAddr := 0, pending := none }

/-! ### 40_accumulator.md -/

/-- R100: INIT. -/
def Obligations.InitStartsFromTheInitialSum : Prop :=
  OnlyWord .init 0x00000001 ∧
  ∀ s : State, ∃ t, exec .init s = .next t ∧
    Committed s t { s.unit with acc := t.unit.acc, cf := false } ∧ t.unit.acc.toNat = s.unit.sumIn.toNat

/-- R102: ADD. -/
def Obligations.AddAddsDataAndDropsTheCarry : Prop :=
  OnlyWord .add 0x00000002 ∧
  ∀ s : State, ∃ t, exec .add s = .next t ∧
    Committed s t { s.unit with acc := t.unit.acc, cf := t.unit.cf } ∧
    t.unit.acc.toNat + 2 ^ 64 * t.unit.cf.toNat = s.unit.acc.toNat + s.unit.data.toNat

/-- R104: ADC. -/
def Obligations.AdcAddsDataAndTheCarry : Prop :=
  OnlyWord .adc 0x00000003 ∧
  ∀ s : State, ∃ t, exec .adc s = .next t ∧
    Committed s t { s.unit with acc := t.unit.acc, cf := t.unit.cf } ∧
    t.unit.acc.toNat + 2 ^ 64 * t.unit.cf.toNat = s.unit.acc.toNat + s.unit.data.toNat + s.unit.cf.toNat

/-- R106: ADC0. -/
def Obligations.AdcZeroFoldsTheCarryIn : Prop :=
  OnlyWord .adc0 0x00000004 ∧
  ∀ s : State, ∃ t, exec .adc0 s = .next t ∧
    Committed s t { s.unit with acc := t.unit.acc, cf := t.unit.cf } ∧
    t.unit.acc.toNat + 2 ^ 64 * t.unit.cf.toNat = s.unit.acc.toNat + s.unit.cf.toNat ∧
    (t.unit.cf = true ↔ s.unit.acc.toNat = 2 ^ 64 - 1 ∧ s.unit.cf = true)

/-- R103, with the premise its proof needs: after ADD a pending carry leaves room for itself; after INIT, ADC and ADC0
it does so if it did before; then ADC0 gives no carry. (From ACC = all ones with CF = 1, which R106 says only a host
write of ACC can bring about, ADC may leave all ones with CF = 1: R104's own corner case.) -/
def Obligations.PendingCarryLeavesRoom : Prop :=
  ∀ s : State,
    (∃ t, exec .add s = .next t ∧ (t.unit.cf = true → t.unit.acc.toNat ≤ 2 ^ 64 - 2)) ∧
    ((s.unit.cf = true → s.unit.acc.toNat ≤ 2 ^ 64 - 2) →
      (∃ t, exec .adc s = .next t ∧ (t.unit.cf = true → t.unit.acc.toNat ≤ 2 ^ 64 - 2)) ∧
      (∃ t, exec .adc0 s = .next t ∧ t.unit.cf = false))

/-- R105: ADC and ADC0 keep ACC + CF modulo 2^64 - 1, plus the word added; ADD loses the old carry. -/
def Obligations.ChainSumIsKeptModulo : Prop :=
  ∀ s : State,
    (∃ t, exec .adc s = .next t ∧ t.unit.acc.toNat + t.unit.cf.toNat ≡
      s.unit.acc.toNat + s.unit.cf.toNat + s.unit.data.toNat [MOD 2 ^ 64 - 1]) ∧
    (∃ t, exec .adc0 s = .next t ∧ t.unit.acc.toNat + t.unit.cf.toNat ≡
      s.unit.acc.toNat + s.unit.cf.toNat [MOD 2 ^ 64 - 1]) ∧
    (∃ t, exec .add s = .next t ∧ t.unit.acc.toNat + t.unit.cf.toNat ≡
      s.unit.acc.toNat + s.unit.data.toNat [MOD 2 ^ 64 - 1])

/-- R107: a closed chain completes with CF = 0 and ACC the one's-complement sum of the integer sum of its inputs,
so their order and grouping do not matter, and it splits into two closed chains. -/
def Obligations.ClosedChainIsTheOnesComplementSum : Prop :=
  (∀ (s : State) (w0 : DWord) (ws : List DWord), s.unit.cf = false →
    ∃ t, closedChain w0 ws s = .next t ∧ t.unit.cf = false ∧
      t.unit.acc.toNat = ocsum 64 (s.unit.acc.toNat + w0.toNat + (ws.map BitVec.toNat).sum) ∧
      Kept s t ∧ t.unit.result = s.unit.result ∧ t.unit.sumIn = s.unit.sumIn ∧ t.unit.addr = s.unit.addr ∧
      t.unit.len = s.unit.len) ∧
  (∀ x y, ocsum 64 (ocsum 64 x + y) = ocsum 64 (x + y)) ∧
  (∀ x, ocsum 64 x = 0 ↔ x = 0) ∧
  (∀ x, ocsum 64 x = 2 ^ 64 - 1 ↔ 0 < x ∧ x % (2 ^ 64 - 1) = 0)

/-! ### 41_fold.md -/

/-- R121, R123, R124: the folds are the one's-complement sums of their operand at the narrower width, with no carry
left over. -/
def Obligations.FoldsAreOnesComplementSums : Prop :=
  (∀ hi lo : Word, (addC (addC hi lo false).1 0 (addC hi lo false).2).2 = false) ∧
  (∀ v : DWord, (fold64to32 (v.extractLsb' 32 32) (v.extractLsb' 0 32)).toNat = ocsum 32 v.toNat ∧
    ocsum 32 v.toNat ≡ v.toNat [MOD 2 ^ 32 - 1] ∧ (ocsum 32 v.toNat = 0 ↔ v = 0)) ∧
  (∀ (v : DWord) (N : Nat), v.toNat = ocsum 64 N →
    (fold64to32 (v.extractLsb' 32 32) (v.extractLsb' 0 32)).toNat = ocsum 32 N) ∧
  (∀ v : Word, (fold32to16 v).toNat = ocsum 16 v.toNat ∧
    fold32to16 ((fold32to16 v).setWidth 32) = fold32to16 v ∧
    (addC (addC (v.extractLsb' 16 16) (v.extractLsb' 0 16) false).1 0
      (addC (v.extractLsb' 16 16) (v.extractLsb' 0 16) false).2).2 = false) ∧
  (∀ v : DWord,
    (fold32to16 (fold64to32 (v.extractLsb' 32 32) (v.extractLsb' 0 32))).toNat = ocsum 16 v.toNat ∧
    ocsum 16 v.toNat ≡ v.toNat / 2 ^ 48 + v.toNat / 2 ^ 32 % 2 ^ 16 + v.toNat / 2 ^ 16 % 2 ^ 16 + v.toNat % 2 ^ 16
      [MOD 0xFFFF] ∧
    (ocsum 16 v.toNat = 0 ↔ v = 0))

/-- R126: swap16 exchanges the bytes, is its own inverse and multiplies by 256 modulo 0xFFFF. -/
def Obligations.SwapExchangesTheBytes : Prop :=
  ∀ v : Half, (swap16 v).toNat = v.toNat % 256 * 256 + v.toNat / 256 ∧ swap16 (swap16 v) = v ∧
    (swap16 v).toNat ≡ 256 * v.toNat [MOD 0xFFFF] ∧ swap16 0 = 0 ∧ swap16 0xFFFF = 0xFFFF

/-- R122: FOLD64. -/
def Obligations.FoldSixtyFourReducesAcc : Prop :=
  OnlyWord .fold64 0x00000010 ∧
  ∀ s : State, ∃ t, exec .fold64 s = .next t ∧
    Committed s t { s.unit with result := t.unit.result } ∧ t.unit.result.toNat = ocsum 32 s.unit.acc.toNat

/-- R125: FOLD32. -/
def Obligations.FoldThirtyTwoReducesResult : Prop :=
  OnlyWord .fold32 0x00000011 ∧
  ∀ s : State, ∃ t, exec .fold32 s = .next t ∧
    Committed s t { s.unit with result := t.unit.result } ∧ t.unit.result.toNat = ocsum 16 s.unit.result.toNat

/-- R127: SWAP16. -/
def Obligations.SwapSixteenSwapsResult : Prop :=
  OnlyWord .swap16 0x00000012 ∧
  ∀ s : State, ∃ t, exec .swap16 s = .next t ∧
    Committed s t { s.unit with result := t.unit.result } ∧
    t.unit.result.toNat = s.unit.result.toNat % 256 * 256 + s.unit.result.toNat / 256 % 256

/-- R128: FOLD64 and FOLD32 leave the 16-bit sum of ACC in RESULT, and SWAP16 after them its byte swap. -/
def Obligations.FoldSequenceFinishesTheSum : Prop :=
  ∀ s : State, ∃ t t', andThen (exec .fold64 s) (exec .fold32) = .next t ∧ exec .swap16 t = .next t' ∧
    t.unit.result.toNat = ocsum 16 s.unit.acc.toNat ∧
    t'.unit.result.toNat = ocsum 16 s.unit.acc.toNat % 256 * 256 + ocsum 16 s.unit.acc.toNat / 256 ∧
    t'.unit.acc = s.unit.acc ∧ t'.unit.cf = s.unit.cf

/-! ### 42_loader.md -/

/-- R140, R141: LDW on an ordinary, accepted range loads exactly its bytes, zero-padded, into DATA. -/
def Obligations.LdwLoadsItsBytes : Prop :=
  ∀ (s : State) (n : BitVec 4), 1 ≤ n.toNat → n.toNat ≤ 8 →
    s.Ordinary s.unit.addr n.toNat → s.Accepts s.unit.addr n.toNat →
    ∃ t, exec (.ldw n) s = .next t ∧ Committed s t { s.unit with data := t.unit.data } ∧
      t.unit.data.toNat < 2 ^ (8 * n.toNat) ∧
      ∀ k < n.toNat, s.answer (s.unit.addr.toNat + k) = some (t.unit.data.extractLsb' (8 * k) 8)

/-- R142: the source's two mechanisms for the tail give the loader's value. -/
def Obligations.TailMechanismsGiveTheLoadersValue : Prop :=
  ∀ (rd : DWord → Byte) (a : DWord) (n : Nat), 1 ≤ n → n ≤ 7 →
    (memRead rd a 8 <<< (64 - 8 * n)) >>> (64 - 8 * n) = loadTail rd a n ∧
    (∀ d, d = a.toNat % 8 → d + n ≤ 8 →
      ((memRead rd (a - BitVec.ofNat 64 d) 8 >>> (8 * d)) <<< (64 - 8 * n)) >>> (64 - 8 * n) = loadTail rd a n)

/-! ### 43_kernel.md -/

/-- R151: CSUM on an ordinary, accepted range writes csum_partial of its bytes to RESULT. -/
def Obligations.CsumWritesTheKernelValue : Prop :=
  OnlyWord .csum 0x00000030 ∧
  ∀ s : State, s.unit.len.toNat < 2 ^ 31 →
    s.Ordinary s.unit.addr s.unit.len.toNat → s.Accepts s.unit.addr s.unit.len.toNat →
    ∃ (t : State) (rd : DWord → Byte), exec .csum s = .next t ∧ s.Bytes rd s.unit.addr s.unit.len.toNat ∧
      Committed s t { s.unit with result := csumPartial rd s.unit.addr s.unit.len.toNat s.unit.sumIn }

/-- R152: a negative length fails with BAD_LENGTH, whatever ADDR and memory are. -/
def Obligations.NegativeLengthIsRejected : Prop :=
  ∀ s : State, 2 ^ 31 ≤ s.unit.len.toNat → ∃ t, exec .csum s = .next t ∧ Failed s t 3 s.unit.errAddr

/-- R154: the kernel's value at an even address. -/
def Obligations.KernelClosedFormEvenAddress : Prop :=
  ∀ (rd : DWord → Byte) (addr : DWord) (len : Nat) (s : Word), addr.toNat % 2 = 0 →
    (csumPartial rd addr len s).toNat =
      ocsum 32 (s.toNat + ∑ j ∈ Finset.range len, (rd (addr + BitVec.ofNat 64 j)).toNat * 2 ^ (8 * (j % 8)))

/-- R155: the kernel's value at an odd address. -/
def Obligations.KernelClosedFormOddAddress : Prop :=
  ∀ (rd : DWord → Byte) (addr : DWord) (len : Nat) (s : Word) (v : Half), addr.toNat % 2 = 1 → 1 ≤ len →
    v.toNat = ocsum 16 (s.toNat + (rd addr).toNat * 2 ^ 8 +
      ∑ j ∈ Finset.range (len - 1), (rd (addr + BitVec.ofNat 64 (j + 1))).toNat * 2 ^ (8 * (j % 8))) →
    csumPartial rd addr len s = (swap16 v).setWidth 32

/-- R156: when RESULT[31:16] can be non-zero. -/
def Obligations.UpperHalfIsZeroOnlyOnTheOddPath : Prop :=
  (∀ (rd : DWord → Byte) (addr : DWord) (len : Nat) (s : Word), addr.toNat % 2 = 1 → 1 ≤ len →
    (csumPartial rd addr len s).toNat < 2 ^ 16) ∧
  (∃ (rd : DWord → Byte) (addr : DWord) (len : Nat) (s : Word), addr.toNat % 2 = 0 ∧ 1 ≤ len ∧
    2 ^ 16 ≤ (csumPartial rd addr len s).toNat) ∧
  (∃ (rd : DWord → Byte) (addr : DWord) (s : Word), addr.toNat % 2 = 1 ∧
    2 ^ 16 ≤ (csumPartial rd addr 0 s).toNat)

/-- R157: the kernel is a function of the bytes of the range, the length, the initial sum and the parity of the
address alone. -/
def Obligations.KernelDependsOnBytesAndParity : Prop :=
  ∀ (rd rd' : DWord → Byte) (addr addr' : DWord) (len : Nat) (s : Word), addr.toNat % 2 = addr'.toNat % 2 →
    (∀ k < len, rd (addr + BitVec.ofNat 64 k) = rd' (addr' + BitVec.ofNat 64 k)) →
    csumPartial rd addr len s = csumPartial rd' addr' len s

/-- R159: with LEN = 0, CSUM returns SUM_IN at every address, whatever memory is. -/
def Obligations.ZeroLengthReturnsTheInitialSum : Prop :=
  (∀ (rd : DWord → Byte) (addr : DWord) (s : Word), csumPartial rd addr 0 s = s) ∧
  (∀ s : State, s.unit.len = 0 →
    ∃ t, exec .csum s = .next t ∧ Committed s t { s.unit with result := s.unit.sumIn })

/-- R160, R162: CSUM40 writes csum_partial of 40 bytes to RESULT whatever LEN is, and the hint changes nothing. -/
def Obligations.CsumFortyWritesTheKernelValue : Prop :=
  (∀ h : Strategy, decode (encode (.csum40 h)) = .ok (.csum40 h) ∧ (encode (.csum40 h)).toNat = tableWord (.csum40 h)) ∧
  (∀ w : Word, w.toNat % 256 = 0x31 → 4 ≤ w.toNat / 256 → decode w = .error .reserved) ∧
  (∀ (h h' : Strategy) (s : State), exec (.csum40 h) s = exec (.csum40 h') s) ∧
  (∀ (h : Strategy) (s : State), s.Ordinary s.unit.addr 40 → s.Accepts s.unit.addr 40 →
    ∃ (t : State) (rd : DWord → Byte), exec (.csum40 h) s = .next t ∧ s.Bytes rd s.unit.addr 40 ∧
      Committed s t { s.unit with result := csumPartial rd s.unit.addr 40 s.unit.sumIn })

/-- R161: CSUM40 ends as CSUM does with LEN = 40, whether it commits or fails, but that LEN stays as it was. -/
def Obligations.CsumFortyAgreesWithCsum : Prop :=
  ∀ (s t : State) (h : Strategy), exec (.csum40 h) s = .next t →
    exec .csum { s with unit := { s.unit with len := 40 } } = .next { t with unit := { t.unit with len := 40 } } ∧
    t.unit.len = s.unit.len

/-- R164: the same bytes at an odd and at an even address; and the seeds for which the two have one 16-bit sum. -/
def Obligations.AlignmentSwapsTheInitialSum : Prop :=
  ∀ (rd : DWord → Byte) (odd even : DWord) (len : Nat) (s : Word),
    odd.toNat % 2 = 1 → even.toNat % 2 = 0 →
    (∀ k < len, rd (odd + BitVec.ofNat 64 k) = rd (even + BitVec.ofNat 64 k)) →
    (1 ≤ len →
      csumPartial rd odd len s =
        (fold32to16 (csumPartial rd even len ((swap16 (fold32to16 s)).setWidth 32))).setWidth 32) ∧
    (s = 0 → csumPartial rd odd len s = (fold32to16 (csumPartial rd even len s)).setWidth 32) ∧
    (1 ≤ len → (fold32to16 (csumPartial rd odd len s) = fold32to16 (csumPartial rd even len s) ↔
      s.toNat % 257 = 0))

/-- R165: chaining two pieces of a buffer that starts at an even address. -/
def Obligations.ChainingFollowsTheSplitPoint : Prop :=
  (∀ (rd : DWord → Byte) (a : DWord) (la lb : Nat) (s rA rC rW : Word), a.toNat % 2 = 0 →
    rA = csumPartial rd a la s → rC = csumPartial rd (a + BitVec.ofNat 64 la) lb rA →
    rW = csumPartial rd a (la + lb) s →
    (la % 4 = 0 → rC = rW) ∧
    (la % 4 = 2 → fold32to16 rC = fold32to16 rW) ∧
    (la % 2 = 1 → 1 ≤ lb → rC = (swap16 (fold32to16 rW)).setWidth 32) ∧
    (la % 2 = 1 → lb = 0 → rC = rA ∧ rA = rW)) ∧
  (∃ (rd : DWord → Byte) (a : DWord) (la lb : Nat) (s : Word), a.toNat % 2 = 0 ∧ la % 4 = 2 ∧
    csumPartial rd (a + BitVec.ofNat 64 la) lb (csumPartial rd a la s) ≠ csumPartial rd a (la + lb) s)
end

