-- ==== Sys2Proof/Laws/PerInstr.lean ====
section
/-! SUPPORT. Per command: its word has its opcode, its immediate and a zero RSV field (30_encoding.md R80, R82,
R83). -/

namespace Sys2Proof.Laws.EncodedFields

/-- The three fields of the word of a command. -/
def Statement (i : Instr) : Prop :=
  opcField (encode i) = opcodeOf i ∧ immField (encode i) = immOf i ∧ rsvField (encode i) = 0

/-- The fields of a word put together from its fields. -/
theorem fields_of_append (imm : BitVec 4) (opc : BitVec 8) :
    opcField ((0#20) ++ imm ++ opc) = opc ∧ immField ((0#20) ++ imm ++ opc) = imm ∧
      rsvField ((0#20) ++ imm ++ opc) = 0 := by
  have hw : ((0#20) ++ imm ++ opc : BitVec 32).toNat = imm.toNat * 256 + opc.toNat := by
    have ho := opc.isLt
    simp only [BitVec.toNat_append, BitVec.toNat_ofNat, Nat.zero_mod, Nat.zero_shiftLeft, Nat.zero_or]
    rw [← Nat.shiftLeft_add_eq_or_of_lt (by omega), Nat.shiftLeft_eq]
  have hi := imm.isLt
  have ho := opc.isLt
  refine ⟨?_, ?_, ?_⟩ <;> apply BitVec.eq_of_toNat_eq <;>
    simp only [opcField, immField, rsvField, BitVec.extractLsb'_toNat, hw, Nat.shiftRight_eq_div_pow,
      BitVec.ofNat_eq_ofNat, BitVec.toNat_ofNat] <;> omega

theorem init : Statement .init := fields_of_append _ _
theorem add : Statement .add := fields_of_append _ _
theorem adc : Statement .adc := fields_of_append _ _
theorem adc0 : Statement .adc0 := fields_of_append _ _
theorem fold64 : Statement .fold64 := fields_of_append _ _
theorem fold32 : Statement .fold32 := fields_of_append _ _
theorem swap16 : Statement .swap16 := fields_of_append _ _
theorem ldw (n : BitVec 4) : Statement (.ldw n) := fields_of_append _ _
theorem csum : Statement .csum := fields_of_append _ _
theorem csum40 (hint : Strategy) : Statement (.csum40 hint) := fields_of_append _ _
theorem srst : Statement .srst := fields_of_append _ _

end Sys2Proof.Laws.EncodedFields
end

