-- ==== Sys2Proof/Laws/Decode.lean ====
section
/-! SUPPORT. The fields of a command word as numbers (30_encoding.md R80), and a word from its fields. -/

namespace Sys2Proof

theorem opcField_toNat (w : Word) : (opcField w).toNat = w.toNat % 256 := by
  simp [opcField, BitVec.extractLsb'_toNat]

theorem immField_toNat (w : Word) : (immField w).toNat = w.toNat / 256 % 16 := by
  simp [immField, BitVec.extractLsb'_toNat, Nat.shiftRight_eq_div_pow]

theorem rsvField_toNat (w : Word) : (rsvField w).toNat = w.toNat / 4096 := by
  have := w.isLt
  simp only [rsvField, BitVec.extractLsb'_toNat, Nat.shiftRight_eq_div_pow]
  omega

theorem word_toNat_fields (w : Word) :
    w.toNat = (opcField w).toNat + 256 * (immField w).toNat + 4096 * (rsvField w).toNat := by
  rw [opcField_toNat, immField_toNat, rsvField_toNat]
  omega

/-- A word is its three fields. -/
theorem word_ext {w w' : Word} (ho : opcField w = opcField w') (hi : immField w = immField w')
    (hr : rsvField w = rsvField w') : w = w' := by
  apply BitVec.eq_of_toNat_eq
  rw [word_toNat_fields w, word_toNat_fields w', ho, hi, hr]

theorem strategyBits_ofBits (h : BitVec 2) : strategyBits (strategyOfBits h) = h := by
  revert h; decide

theorem strategyOfBits_bits (h : Strategy) : strategyOfBits (strategyBits h) = h := by
  cases h <;> rfl

end Sys2Proof
end

