-- ==== Sys2Proof/Laws/State.lean ====
section
/-! SUPPORT. One lemma per field for each update of State that the operations make, so that no later proof unfolds
a record update. -/

namespace Sys2Proof.Machine

/-! ### commit -/

@[simp] theorem commit_unit (u : CsumUnit) (s : State) :
    (commit u s).unit = { u with pending := none, busy := false, done := true } := rfl
@[simp] theorem commit_port (u : CsumUnit) (s : State) : (commit u s).port = s.port := rfl
@[simp] theorem commit_window (u : CsumUnit) (s : State) : (commit u s).window = [] := rfl
@[simp] theorem commit_unseen (u : CsumUnit) (s : State) : (commit u s).unseen = s.unseen := rfl
@[simp] theorem commit_platform (u : CsumUnit) (s : State) : (commit u s).platform = s.platform := rfl
@[simp] theorem commit_events (u : CsumUnit) (s : State) : (commit u s).events = s.events := rfl
@[simp] theorem commit_reads (u : CsumUnit) (s : State) : (commit u s).reads = s.reads := rfl
@[simp] theorem commit_draws (u : CsumUnit) (s : State) : (commit u s).draws = s.draws := rfl

/-! ### fail -/

@[simp] theorem fail_unit (e : ErrCode) (info : Option DWord) (s : State) :
    (fail e info s).unit = { s.unit with
      errv := true, ecode := errNumber e, errAddr := info.getD s.unit.errAddr, pending := none, busy := false } := rfl
@[simp] theorem fail_port (e : ErrCode) (info : Option DWord) (s : State) : (fail e info s).port = s.port := rfl
@[simp] theorem fail_window (e : ErrCode) (info : Option DWord) (s : State) : (fail e info s).window = [] := rfl
@[simp] theorem fail_unseen (e : ErrCode) (info : Option DWord) (s : State) :
    (fail e info s).unseen = s.unseen := rfl
@[simp] theorem fail_platform (e : ErrCode) (info : Option DWord) (s : State) :
    (fail e info s).platform = s.platform := rfl
@[simp] theorem fail_events (e : ErrCode) (info : Option DWord) (s : State) :
    (fail e info s).events = s.events := rfl
@[simp] theorem fail_reads (e : ErrCode) (info : Option DWord) (s : State) : (fail e info s).reads = s.reads := rfl
@[simp] theorem fail_draws (e : ErrCode) (info : Option DWord) (s : State) : (fail e info s).draws = s.draws := rfl

/-! ### resetUnit -/

@[simp] theorem resetUnit_unit (s : State) : (resetUnit s).unit = CsumUnit.reset := rfl
@[simp] theorem resetUnit_port (s : State) : (resetUnit s).port = s.port := rfl
@[simp] theorem resetUnit_window (s : State) : (resetUnit s).window = [] := rfl
@[simp] theorem resetUnit_unseen (s : State) : (resetUnit s).unseen = s.unseen := rfl
@[simp] theorem resetUnit_platform (s : State) : (resetUnit s).platform = s.platform := rfl
@[simp] theorem resetUnit_events (s : State) : (resetUnit s).events = s.events := rfl
@[simp] theorem resetUnit_reads (s : State) : (resetUnit s).reads = s.reads := rfl
@[simp] theorem resetUnit_draws (s : State) : (resetUnit s).draws = s.draws := rfl

/-! ### countDraw -/

@[simp] theorem countDraw_unit (s : State) : (countDraw s).unit = s.unit := rfl
@[simp] theorem countDraw_port (s : State) : (countDraw s).port = s.port := rfl
@[simp] theorem countDraw_window (s : State) : (countDraw s).window = s.window := rfl
@[simp] theorem countDraw_unseen (s : State) : (countDraw s).unseen = s.unseen := rfl
@[simp] theorem countDraw_platform (s : State) : (countDraw s).platform = s.platform := rfl
@[simp] theorem countDraw_events (s : State) : (countDraw s).events = s.events := rfl
@[simp] theorem countDraw_reads (s : State) : (countDraw s).reads = s.reads := rfl
@[simp] theorem countDraw_draws (s : State) : (countDraw s).draws = s.draws + 1 := rfl

/-! ### acceptCommand -/

@[simp] theorem acceptCommand_unit (w : Word) (s : State) :
    (acceptCommand w s).unit = { s.unit with pending := some w, busy := true, done := false } := rfl
@[simp] theorem acceptCommand_port (w : Word) (s : State) : (acceptCommand w s).port = s.port := rfl
@[simp] theorem acceptCommand_window (w : Word) (s : State) : (acceptCommand w s).window = [] := rfl
@[simp] theorem acceptCommand_unseen (w : Word) (s : State) : (acceptCommand w s).unseen = s.unseen := rfl
@[simp] theorem acceptCommand_platform (w : Word) (s : State) : (acceptCommand w s).platform = s.platform := rfl
@[simp] theorem acceptCommand_events (w : Word) (s : State) : (acceptCommand w s).events = s.events := rfl
@[simp] theorem acceptCommand_reads (w : Word) (s : State) : (acceptCommand w s).reads = s.reads := rfl
@[simp] theorem acceptCommand_draws (w : Word) (s : State) : (acceptCommand w s).draws = s.draws := rfl

/-! ### ignoreWrite -/

@[simp] theorem ignoreWrite_unit (s : State) : (ignoreWrite s).unit = { s.unit with ovr := true } := rfl
@[simp] theorem ignoreWrite_port (s : State) : (ignoreWrite s).port = s.port := rfl
@[simp] theorem ignoreWrite_window (s : State) : (ignoreWrite s).window = s.window := rfl
@[simp] theorem ignoreWrite_unseen (s : State) : (ignoreWrite s).unseen = s.unseen := rfl
@[simp] theorem ignoreWrite_platform (s : State) : (ignoreWrite s).platform = s.platform := rfl
@[simp] theorem ignoreWrite_events (s : State) : (ignoreWrite s).events = s.events := rfl
@[simp] theorem ignoreWrite_reads (s : State) : (ignoreWrite s).reads = s.reads := rfl
@[simp] theorem ignoreWrite_draws (s : State) : (ignoreWrite s).draws = s.draws := rfl

/-! ### changePort -/

@[simp] theorem changePort_unit (p : PortImage) (s : State) : (changePort p s).unit = s.unit := rfl
@[simp] theorem changePort_port (p : PortImage) (s : State) : (changePort p s).port = p := rfl
@[simp] theorem changePort_window (p : PortImage) (s : State) :
    (changePort p s).window = if s.unit.pending.isSome then s.port :: s.window else s.window := rfl
@[simp] theorem changePort_unseen (p : PortImage) (s : State) : (changePort p s).unseen = s.unseen := rfl
@[simp] theorem changePort_platform (p : PortImage) (s : State) : (changePort p s).platform = s.platform := rfl
@[simp] theorem changePort_events (p : PortImage) (s : State) : (changePort p s).events = s.events := rfl
@[simp] theorem changePort_reads (p : PortImage) (s : State) : (changePort p s).reads = s.reads := rfl
@[simp] theorem changePort_draws (p : PortImage) (s : State) : (changePort p s).draws = s.draws := rfl

/-! ### setAcc -/

@[simp] theorem setAcc_acc (u : CsumUnit) (r : DWord × Bool) : (u.setAcc r).acc = r.1 := rfl
@[simp] theorem setAcc_cf (u : CsumUnit) (r : DWord × Bool) : (u.setAcc r).cf = r.2 := rfl

/-! ### the register writes that work at any time -/

@[simp] theorem writeCtrl_ie (u : CsumUnit) (v : Word) : (u.writeCtrl v).ie = v.getLsbD 0 := rfl
@[simp] theorem writeCtrl_pending (u : CsumUnit) (v : Word) : (u.writeCtrl v).pending = u.pending := rfl
@[simp] theorem writeCtrl_busy (u : CsumUnit) (v : Word) : (u.writeCtrl v).busy = u.busy := rfl
@[simp] theorem writeStatus_done (u : CsumUnit) (v : Word) :
    (u.writeStatus v).done = (u.done && !v.getLsbD 1) := rfl
@[simp] theorem writeStatus_errv (u : CsumUnit) (v : Word) :
    (u.writeStatus v).errv = (u.errv && !v.getLsbD 2) := rfl
@[simp] theorem writeStatus_ecode (u : CsumUnit) (v : Word) :
    (u.writeStatus v).ecode = if v.getLsbD 2 then 0 else u.ecode := rfl
@[simp] theorem writeStatus_ovr (u : CsumUnit) (v : Word) :
    (u.writeStatus v).ovr = (u.ovr && !v.getLsbD 3) := rfl
@[simp] theorem writeStatus_pending (u : CsumUnit) (v : Word) : (u.writeStatus v).pending = u.pending := rfl
@[simp] theorem writeStatus_busy (u : CsumUnit) (v : Word) : (u.writeStatus v).busy = u.busy := rfl

end Sys2Proof.Machine
end

