-- ==== Sys2Proof/Laws/Memory.lean ====
section
/-! SUPPORT. Memory: a read after a write to the same address gives the value written, a write leaves every other
address alone, and every operation keeps the canonical form. -/

namespace Sys2Proof.Machine

theorem Memory.wfFrom_cons {lo k : Nat} {b : Byte} {m : Memory} :
    Memory.wfFrom lo ((k, b) :: m) = true ↔
      lo ≤ k ∧ k < Config.addrSpace ∧ b ≠ unlistedByte ∧ Memory.wfFrom (k + 1) m = true := by
  simp only [Memory.wfFrom, Bool.and_eq_true, decide_eq_true_eq, and_assoc]

theorem Memory.wfFrom_mono {lo lo' : Nat} (h : lo' ≤ lo) {m : Memory} (hm : Memory.wfFrom lo m = true) :
    Memory.wfFrom lo' m = true := by
  cases m with
  | nil => rfl
  | cons c m =>
    rw [Memory.wfFrom_cons] at hm ⊢
    exact ⟨h.trans hm.1, hm.2⟩

theorem Memory.read_below {lo a : Nat} (h : a < lo) {m : Memory} (hm : Memory.wfFrom lo m = true) :
    Memory.read m a = unlistedByte := by
  induction m generalizing lo with
  | nil => rfl
  | cons c m ih =>
    rw [Memory.wfFrom_cons] at hm
    have hne : c.1 ≠ a := by omega
    simp only [Memory.read, if_neg hne]
    exact ih (by omega) hm.2.2.2

theorem Memory.read_enter_self (a : Nat) (b : Byte) {m : Memory} (hm : Memory.read m a = unlistedByte) :
    Memory.read (Memory.enter a b m) a = b := by
  unfold Memory.enter
  split
  · next h => rw [hm, h]
  · simp [Memory.read]

theorem Memory.read_enter_other {a x : Nat} (b : Byte) (h : a ≠ x) (m : Memory) :
    Memory.read (Memory.enter a b m) x = Memory.read m x := by
  unfold Memory.enter
  split
  · rfl
  · simp [Memory.read, h]

theorem Memory.wfFrom_enter {lo a : Nat} (b : Byte) (hlo : lo ≤ a) (ha : a < Config.addrSpace) {m : Memory}
    (hm : Memory.wfFrom (a + 1) m = true) : Memory.wfFrom lo (Memory.enter a b m) = true := by
  unfold Memory.enter
  split
  · exact Memory.wfFrom_mono (by omega) hm
  · next hb => exact Memory.wfFrom_cons.mpr ⟨hlo, ha, hb, hm⟩

/-- A read after a write to the same address. -/
theorem Memory.read_write_self {m : Memory} (a : Nat) (b : Byte) {lo : Nat} (hm : Memory.wfFrom lo m = true) :
    Memory.read (Memory.write m a b) a = b := by
  induction m generalizing lo with
  | nil => exact Memory.read_enter_self a b rfl
  | cons c m ih =>
    rw [Memory.wfFrom_cons] at hm
    simp only [Memory.write]
    split
    · next h =>
      refine Memory.read_enter_self a b (Memory.read_below h (m := c :: m) ?_)
      exact Memory.wfFrom_cons.mpr ⟨le_rfl, hm.2⟩
    · split
      · next h => exact Memory.read_enter_self a b (Memory.read_below (by omega) hm.2.2.2)
      · next h =>
        have hne : c.1 ≠ a := Ne.symm h
        simp only [Memory.read, if_neg hne]
        exact ih hm.2.2.2

/-- A write leaves every other address alone. -/
theorem Memory.read_write_other {a x : Nat} (h : a ≠ x) (b : Byte) (m : Memory) :
    Memory.read (Memory.write m a b) x = Memory.read m x := by
  induction m with
  | nil => exact Memory.read_enter_other b h []
  | cons c m ih =>
    simp only [Memory.write]
    split
    · exact Memory.read_enter_other b h _
    · split
      · next hc =>
        have hne : c.1 ≠ x := hc ▸ h
        rw [Memory.read_enter_other b h]
        simp only [Memory.read, if_neg hne]
      · simp only [Memory.read, ih]

theorem Memory.wfFrom_write {m : Memory} {a lo : Nat} (b : Byte) (hlo : lo ≤ a) (ha : a < Config.addrSpace)
    (hm : Memory.wfFrom lo m = true) : Memory.wfFrom lo (Memory.write m a b) = true := by
  induction m generalizing lo with
  | nil => exact Memory.wfFrom_enter b hlo ha rfl
  | cons c m ih =>
    rw [Memory.wfFrom_cons] at hm
    simp only [Memory.write]
    split
    · next h => exact Memory.wfFrom_enter b hlo ha (Memory.wfFrom_cons.mpr ⟨h, hm.2⟩)
    · split
      · next h => exact Memory.wfFrom_enter b hlo ha (h ▸ hm.2.2.2)
      · exact Memory.wfFrom_cons.mpr ⟨hm.1, hm.2.1, hm.2.2.1, ih (by omega) hm.2.2.2⟩

/-- A write keeps the canonical form. -/
theorem Memory.wf_write {m : Memory} (a : DWord) (b : Byte) (hm : Memory.wf m = true) :
    Memory.wf (Memory.write m a.toNat b) = true :=
  Memory.wfFrom_write b (Nat.zero_le _) a.isLt hm

theorem Memory.wf_reset : Memory.wf State.reset.port.mem = true := rfl

end Sys2Proof.Machine
end

