-- ==== Sys2Proof/Laws/Ops.lean ====
section
/-! SUPPORT. What the shared operations of the commands can do, said once: commit, failure, the checks of a byte range
and the draws. Later proofs cite these and unfold nothing. -/

namespace Sys2Proof.Machine

/-- A state with the same port, schedule, platform and host data is kept. -/
theorem Kept.of_same {s t : State} (port : t.port = s.port) (unseen : t.unseen = s.unseen)
    (platform : t.platform = s.platform) (events : t.events = s.events) (reads : t.reads = s.reads) : Kept s t :=
  ⟨fun _ => by rw [port], by rw [port], unseen, platform, events, reads⟩

theorem commit_committed (u : CsumUnit) (s : State) : Committed s (commit u s) u :=
  ⟨rfl, rfl, Kept.of_same rfl rfl rfl rfl rfl⟩

theorem fail_failed (e : ErrCode) (info : Option DWord) (s : State) :
    Failed s (fail e info s) (errNumber e) (info.getD s.unit.errAddr) :=
  ⟨rfl, rfl, Kept.of_same rfl rfl rfl rfl rfl⟩

theorem commit_countDraw_committed (u : CsumUnit) (s : State) : Committed s (commit u (countDraw s)) u :=
  ⟨rfl, rfl, Kept.of_same rfl rfl rfl rfl rfl⟩

theorem fail_countDraw_failed (e : ErrCode) (info : Option DWord) (s : State) :
    Failed s (fail e info (countDraw s)) (errNumber e) (info.getD s.unit.errAddr) :=
  ⟨rfl, rfl, Kept.of_same rfl rfl rfl rfl rfl⟩

theorem errNumber_range (e : ErrCode) : 1 ≤ (errNumber e).toNat ∧ (errNumber e).toNat ≤ 6 := by
  cases e <;> decide

/-! ### the range -/

theorem wraps_iff (addr : DWord) (n : Nat) : wraps addr n = true ↔ 2 ^ 64 < addr.toNat + n := by
  simp [wraps, Config.addrSpace]

theorem not_wraps_iff (addr : DWord) (n : Nat) : wraps addr n = false ↔ addr.toNat + n ≤ 2 ^ 64 := by
  simp [wraps, Config.addrSpace]

/-- The k-th address of a range that does not wrap. -/
theorem rangeAddr_toNat {addr : DWord} {n k : Nat} (h : addr.toNat + n ≤ 2 ^ 64) (hk : k < n) :
    (addr + BitVec.ofNat 64 k).toNat = addr.toNat + k := by
  rw [BitVec.toNat_add, BitVec.toNat_ofNat]
  omega

theorem mem_rejectedIn {s : State} {addr : DWord} {n a : Nat} :
    a ∈ s.rejectedIn addr n ↔ ∃ k < n, a = addr.toNat + k ∧ s.answer a = none := by
  simp only [State.rejectedIn, List.mem_filter, List.mem_map, List.mem_range, Option.isNone_iff_eq_none]
  constructor
  · rintro ⟨⟨k, hk, rfl⟩, h⟩
    exact ⟨k, hk, rfl, h⟩
  · rintro ⟨k, hk, rfl, h⟩
    exact ⟨⟨k, hk, rfl⟩, h⟩

/-- No byte of the range is rejected exactly when the port accepts it. -/
theorem rejectedIn_eq_nil {s : State} {addr : DWord} {n : Nat} :
    s.rejectedIn addr n = [] ↔ s.Accepts addr n := by
  rw [List.eq_nil_iff_forall_not_mem]
  constructor
  · intro h k hk
    rw [Option.isSome_iff_ne_none]
    exact fun hn => h _ (mem_rejectedIn.mpr ⟨k, hk, rfl, hn⟩)
  · intro h a ha
    obtain ⟨k, hk, rfl, hn⟩ := mem_rejectedIn.mp ha
    exact Option.isSome_iff_ne_none.mp (h k hk) hn

/-- The bytes `memByte` gives are the port's answers on an accepted range. -/
theorem memByte_bytes {s : State} {addr : DWord} {n : Nat} (hn : addr.toNat + n ≤ 2 ^ 64)
    (h : s.Accepts addr n) : s.Bytes s.memByte addr n := by
  intro k hk
  obtain ⟨b, hb⟩ := Option.isSome_iff_exists.mp (h k hk)
  rw [State.memByte, rangeAddr_toNat hn hk, hb]
  rfl

/-- The image a read is answered from is one of the window's (20_memory.md R74). -/
theorem imageFor_mem (s : State) (a : Nat) : s.imageFor a ∈ s.images := by
  unfold State.imageFor
  split
  · exact List.mem_cons_self
  · rw [List.getD_eq_getElem?_getD]
    rcases h : s.images[Config.raceDraw s.draws a % s.images.length]? with _ | p
    · exact List.mem_cons_self
    · exact List.mem_of_getElem? h

/-- The address a BUS error records is a rejected one (60_exceptions.md R203). -/
theorem busAddress_mem {bad : List Nat} (draw : Nat) (h : bad ≠ []) :
    ∃ a ∈ bad, busAddress bad draw = BitVec.ofNat 64 a := by
  match bad, h with
  | [a], _ => exact ⟨a, List.mem_cons_self, rfl⟩
  | a :: b :: rest, _ =>
    refine ⟨_, ?_, rfl⟩
    rw [List.getD_eq_getElem?_getD]
    rcases h : (a :: b :: rest)[Config.busDraw draw % (a :: b :: rest).length]? with _ | x
    · exact List.mem_cons_self
    · exact List.mem_of_getElem? h

/-! ### onRange -/

/-- Everything a command over a range can do. -/
inductive RangeOutcome (n : Nat) (run : (DWord → Byte) → CsumUnit → CsumUnit) (s : State) :
    Host.Outcome State Fault Refusal → Prop where
  | wrapped (h : 2 ^ 64 < s.unit.addr.toNat + n) :
      RangeOutcome n run s (.next (fail .range (some s.unit.addr) s))
  | sideEffects (h : s.unit.addr.toNat + n ≤ 2 ^ 64) (hd : s.hasSideEffects s.unit.addr n = true) :
      RangeOutcome n run s (.refused .sideEffectRange)
  | silent (h : s.unit.addr.toNat + n ≤ 2 ^ 64) (hd : s.hasSideEffects s.unit.addr n = false)
      (hs : s.rangeTouches .silent s.unit.addr n = true) :
      RangeOutcome n run s (.fault .portNeverAnswers)
  | rejected (h : s.Ordinary s.unit.addr n) (k : Nat) (hk : k < n) (hr : s.answer (s.unit.addr.toNat + k) = none)
      (hb : busAddress (s.rejectedIn s.unit.addr n) s.draws = BitVec.ofNat 64 (s.unit.addr.toNat + k)) :
      RangeOutcome n run s
        (.next (fail .bus (some (busAddress (s.rejectedIn s.unit.addr n) s.draws)) (countDraw s)))
  | done (h : s.Ordinary s.unit.addr n) (ha : s.Accepts s.unit.addr n) :
      RangeOutcome n run s (.next (commit (run s.memByte s.unit) (countDraw s)))

theorem onRange_outcome (n : Nat) (run : (DWord → Byte) → CsumUnit → CsumUnit) (s : State) :
    RangeOutcome n run s (onRange n run s) := by
  unfold onRange
  split
  · next h => exact .wrapped ((wraps_iff _ _).mp h)
  next h =>
  have h1 := (not_wraps_iff _ _).mp (Bool.eq_false_iff.mpr h)
  split
  · next hd => exact .sideEffects h1 hd
  next hd =>
  have hd := Bool.eq_false_iff.mpr hd
  split
  · next hs => exact .silent h1 hd hs
  next hs =>
  have ho : s.Ordinary s.unit.addr n := ⟨h1, hd, Bool.eq_false_iff.mpr hs⟩
  split
  · next hr => exact .done ho (rejectedIn_eq_nil.mp hr)
  · next a rest hr =>
    obtain ⟨x, hx, hb⟩ := busAddress_mem (bad := a :: rest) s.draws (by simp)
    rw [← hr] at hx hb ⊢
    obtain ⟨k, hk, rfl, hn⟩ := mem_rejectedIn.mp hx
    exact .rejected ho k hk hn hb

/-- A wrapping range fails with RANGE, whatever memory holds. -/
theorem onRange_wraps {n : Nat} {run : (DWord → Byte) → CsumUnit → CsumUnit} {s : State}
    (h : 2 ^ 64 < s.unit.addr.toNat + n) :
    onRange n run s = .next (fail .range (some s.unit.addr) s) := by
  rw [onRange, if_pos ((wraps_iff _ _).mpr h)]

/-- An accepted range commits. -/
theorem onRange_accepts {n : Nat} {run : (DWord → Byte) → CsumUnit → CsumUnit} {s : State}
    (h : s.Ordinary s.unit.addr n) (ha : s.Accepts s.unit.addr n) :
    onRange n run s = .next (commit (run s.memByte s.unit) (countDraw s)) := by
  simp [onRange, (not_wraps_iff _ _).mpr h.inSpace, h.noSideEffect, h.answered, rejectedIn_eq_nil.mpr ha]

/-- A rejected byte ends the command with BUS. -/
theorem onRange_rejects {n k : Nat} {run : (DWord → Byte) → CsumUnit → CsumUnit} {s : State}
    (h : s.Ordinary s.unit.addr n) (hk : k < n) (hr : s.answer (s.unit.addr.toNat + k) = none) :
    onRange n run s =
      .next (fail .bus (some (busAddress (s.rejectedIn s.unit.addr n) s.draws)) (countDraw s)) := by
  have hm := mem_rejectedIn.mpr ⟨k, hk, rfl, hr⟩
  simp only [onRange, (not_wraps_iff _ _).mpr h.inSpace, h.noSideEffect, h.answered, Bool.false_eq_true, if_false]
  split
  · next h0 => rw [h0] at hm; exact absurd hm List.not_mem_nil
  · next h0 => rw [h0]

end Sys2Proof.Machine
end

