-- ==== Sys2Proof/Laws/Exec.lean ====
section
/-! SUPPORT. What one command can do (44_control.md R182 to R185), said once for all commands: it commits, it fails,
or it resets the block. And what one step can do (R180). -/

namespace Sys2Proof.Machine

/-- The registers a commit does not touch in any command: the status but for BUSY and DONE, ERRADDR, IE and the
operand registers that no command writes (10_state.md R29, R30, R32, R37; 44_control.md R184). -/
structure SameControl (u u' : CsumUnit) : Prop where
  ie : u'.ie = u.ie
  errv : u'.errv = u.errv
  ovr : u'.ovr = u.ovr
  ecode : u'.ecode = u.ecode
  errAddr : u'.errAddr = u.errAddr
  addr : u'.addr = u.addr
  len : u'.len = u.len
  sumIn : u'.sumIn = u.sumIn

/-- How a command ends. -/
inductive CommandEnd (i : Instr) (s : State) : State → Prop where
  | committed (u : CsumUnit) (s' : State) (hi : i ≠ .srst) (hs : s' = s ∨ s' = countDraw s)
      (hu : SameControl s.unit u) : CommandEnd i s (commit u s')
  | failed (e : ErrCode) (info : Option DWord) (s' : State) (hi : i ≠ .srst) (hs : s' = s ∨ s' = countDraw s) :
      CommandEnd i s (fail e info s')
  | reset (hi : i = .srst) : CommandEnd i s (resetUnit s)

theorem onRange_end {i : Instr} (hi : i ≠ .srst) {n : Nat} {run : (DWord → Byte) → CsumUnit → CsumUnit}
    (hrun : ∀ rd u, SameControl u (run rd u)) {s t : State} (h : onRange n run s = .next t) :
    CommandEnd i s t := by
  have ho := onRange_outcome n run s
  rw [h] at ho
  cases ho with
  | wrapped => exact .failed _ _ s hi (.inl rfl)
  | rejected => exact .failed _ _ (countDraw s) hi (.inr rfl)
  | done => exact .committed _ (countDraw s) hi (.inr rfl) (hrun _ _)

/-- Every command ends in one of the three ways. -/
theorem exec_end {i : Instr} {s t : State} (h : exec i s = .next t) : CommandEnd i s t := by
  have same (u u' : CsumUnit) (h : u' = { u with acc := u'.acc, cf := u'.cf, data := u'.data, result := u'.result }) :
      SameControl u u' := by
    rw [h]
    exact ⟨rfl, rfl, rfl, rfl, rfl, rfl, rfl, rfl⟩
  have plain {j : Instr} {u : CsumUnit} (hj : j ≠ .srst)
      (hu : u = { s.unit with acc := u.acc, cf := u.cf, data := u.data, result := u.result })
      (h : (Host.Outcome.next (commit u s) : Host.Outcome State Fault Refusal) = .next t) : CommandEnd j s t := by
    cases h
    exact .committed u s hj (.inl rfl) (same _ _ hu)
  cases i with
  | init => exact plain (by simp) rfl h
  | add => exact plain (by simp) rfl h
  | adc => exact plain (by simp) rfl h
  | adc0 => exact plain (by simp) rfl h
  | fold64 => exact plain (by simp) rfl h
  | fold32 => exact plain (by simp) rfl h
  | swap16 => exact plain (by simp) rfl h
  | ldw n =>
    simp only [exec, execLdw] at h
    split at h
    · cases h
      exact .failed _ _ s (by simp) (.inl rfl)
    · exact onRange_end (by simp) (fun _ _ => same _ _ rfl) h
  | csum =>
    simp only [exec, execCsum, kernelOver] at h
    split at h
    · cases h
      exact .failed _ _ s (by simp) (.inl rfl)
    · exact onRange_end (by simp) (fun _ _ => same _ _ rfl) h
  | csum40 hint =>
    simp only [exec, execCsum40, kernelOver] at h
    exact onRange_end (by simp) (fun _ _ => same _ _ rfl) h
  | srst =>
    cases h
    exact .reset rfl

/-- A command changes nothing outside the block (20_memory.md R61). -/
theorem CommandEnd.kept {i : Instr} {s t : State} (h : CommandEnd i s t) : Kept s t := by
  cases h with
  | committed u s' hi hs hu => rcases hs with rfl | rfl <;> exact Kept.of_same rfl rfl rfl rfl rfl
  | failed e info s' hi hs => rcases hs with rfl | rfl <;> exact Kept.of_same rfl rfl rfl rfl rfl
  | reset hi => exact Kept.of_same rfl rfl rfl rfl rfl

theorem CommandEnd.port {i : Instr} {s t : State} (h : CommandEnd i s t) : t.port = s.port := by
  cases h with
  | committed u s' hi hs hu => rcases hs with rfl | rfl <;> rfl
  | failed e info s' hi hs => rcases hs with rfl | rfl <;> rfl
  | reset hi => rfl

/-- However it ends, no command is running afterwards (44_control.md R184, R185, R190). -/
theorem CommandEnd.idle {i : Instr} {s t : State} (h : CommandEnd i s t) :
    t.unit.pending = none ∧ t.unit.busy = false ∧ t.window = [] := by
  cases h <;> exact ⟨rfl, rfl, rfl⟩

/-! ### commands over a range -/

/-- Only the updates at the state's own bytes and registers count. -/
theorem onRange_congr {n : Nat} {run run' : (DWord → Byte) → CsumUnit → CsumUnit} {s : State}
    (h : run s.memByte s.unit = run' s.memByte s.unit) : onRange n run s = onRange n run' s := by
  simp only [onRange, h]

/-- A memory command whose operand checks pass is its range command. -/
theorem exec_memoryCommand {i : Instr} {s : State} (h : MemoryCommand i s.unit) :
    exec i s = onRange (byteCount i s.unit) (memoryResult i) s := by
  cases i with
  | ldw n =>
    obtain ⟨h1, h2⟩ := h
    have hn : ¬(n = 0 ∨ Config.loaderMax < n.toNat) := by
      rintro (rfl | h)
      · simp at h1
      · simp only [Config.loaderMax] at h
        omega
    exact (if_neg hn).trans (onRange_congr rfl)
  | csum =>
    have hn : ¬s.unit.len.msb = true := by
      have h : s.unit.len.toNat < 2 ^ 31 := h
      simp only [BitVec.msb_eq_decide, decide_eq_true_eq]
      omega
    exact (if_neg hn).trans (onRange_congr rfl)
  | csum40 hint =>
    show onRange 40 (fun rd u => { u with result := csumPartial rd u.addr 40 u.sumIn }) s = _
    exact onRange_congr rfl
  | init => exact h.elim
  | add => exact h.elim
  | adc => exact h.elim
  | adc0 => exact h.elim
  | fold64 => exact h.elim
  | fold32 => exact h.elim
  | swap16 => exact h.elim
  | srst => exact h.elim

/-- A negative length fails before anything else (43_kernel.md R152). -/
theorem exec_csum_negative {s : State} (h : 2 ^ 31 ≤ s.unit.len.toNat) :
    exec .csum s = .next (fail .badLength none s) := by
  refine if_pos ?_
  simp only [BitVec.msb_eq_decide, decide_eq_true_eq]
  omega

/-- Everything a command can do, stops included. -/
inductive CommandOutcome (i : Instr) (s : State) : Host.Outcome State Fault Refusal → Prop where
  | registers (u : CsumUnit) (hm : ¬MemoryCommand i s.unit) (hn : byteCount i s.unit = 0) (hi : i ≠ .srst)
      (hcf : i = .init ∨ i = .add ∨ i = .adc ∨ i = .adc0 ∨ u.cf = s.unit.cf) (hu : SameControl s.unit u) :
      CommandOutcome i s (.next (commit u s))
  | badCount (n : BitVec 4) (hi : i = .ldw n) (hn : n = 0 ∨ 8 < n.toNat) :
      CommandOutcome i s (.next (fail .badCount none s))
  | badLength (hi : i = .csum) (hl : 2 ^ 31 ≤ s.unit.len.toNat) :
      CommandOutcome i s (.next (fail .badLength none s))
  | range (hm : MemoryCommand i s.unit) {o : Host.Outcome State Fault Refusal}
      (ho : RangeOutcome (byteCount i s.unit) (memoryResult i) s o) : CommandOutcome i s o
  | reset (hi : i = .srst) : CommandOutcome i s (.next (resetUnit s))

theorem exec_outcome (i : Instr) (s : State) : CommandOutcome i s (exec i s) := by
  have mem (h : MemoryCommand i s.unit) : CommandOutcome i s (exec i s) := by
    rw [exec_memoryCommand h]
    exact .range h (onRange_outcome _ _ _)
  cases i with
  | init => exact .registers _ id rfl nofun (by simp) ⟨rfl, rfl, rfl, rfl, rfl, rfl, rfl, rfl⟩
  | add => exact .registers _ id rfl nofun (by simp) ⟨rfl, rfl, rfl, rfl, rfl, rfl, rfl, rfl⟩
  | adc => exact .registers _ id rfl nofun (by simp) ⟨rfl, rfl, rfl, rfl, rfl, rfl, rfl, rfl⟩
  | adc0 => exact .registers _ id rfl nofun (by simp) ⟨rfl, rfl, rfl, rfl, rfl, rfl, rfl, rfl⟩
  | fold64 => exact .registers _ id rfl nofun (by simp) ⟨rfl, rfl, rfl, rfl, rfl, rfl, rfl, rfl⟩
  | fold32 => exact .registers _ id rfl nofun (by simp) ⟨rfl, rfl, rfl, rfl, rfl, rfl, rfl, rfl⟩
  | swap16 => exact .registers _ id rfl nofun (by simp) ⟨rfl, rfl, rfl, rfl, rfl, rfl, rfl, rfl⟩
  | ldw n =>
    by_cases h : n = 0 ∨ Config.loaderMax < n.toNat
    · rw [show exec (.ldw n) s = .next (fail .badCount none s) from if_pos h]
      exact .badCount n rfl h
    · refine mem ⟨?_, ?_⟩
      · rw [Nat.one_le_iff_ne_zero]
        exact fun h0 => h (.inl (BitVec.eq_of_toNat_eq h0))
      · exact Nat.not_lt.mp (fun h8 => h (.inr h8))
  | csum =>
    by_cases h : 2 ^ 31 ≤ s.unit.len.toNat
    · rw [exec_csum_negative h]
      exact .badLength rfl h
    · exact mem (Nat.not_le.mp h)
  | csum40 hint => exact mem trivial
  | srst => exact .reset rfl

/-! ### steps -/

theorem step_block {s : State} (h : s.BlockMoves) : step s = blockTurn s.afterMove := by
  obtain ⟨unit, port, window, unseen, platform, events, reads, draws⟩ := s
  cases events with
  | nil => rfl
  | cons e rest =>
    have he : e = .blockTurn := by simpa [State.BlockMoves] using h
    subst he
    rfl

theorem step_event {s : State} {e : Event} {rest : List Event} (h : s.events = e :: rest) :
    step s = takeEvent e s.afterMove := by
  simp only [step, h, State.afterMove, List.tail_cons]

theorem blockTurn_pending {s : State} {w : Word} (h : s.unit.pending = some w) :
    blockTurn s = execWord w s := by
  simp only [blockTurn, h]

theorem execWord_ok {w : Word} {i : Instr} (h : decode w = .ok i) (s : State) : execWord w s = exec i s := by
  simp only [execWord, h]

theorem execWord_error {w : Word} {e : ErrCode} (h : decode w = .error e) (s : State) :
    execWord w s = .next (fail e none s) := by
  simp only [execWord, h]

end Sys2Proof.Machine
end

