-- ==== Sys2Proof/Laws/Ocsum.lean ====
section
/-! SUPPORT. The one's-complement sum as a number (40_accumulator.md R107): it is the one value of its width that is
congruent to N modulo 2^B - 1 and is 0 only for N = 0. Everything else about it follows from that. -/

namespace Sys2Proof.Machine

theorem ocsum_zero (B : Nat) : ocsum B 0 = 0 := rfl

theorem ocsum_pos {B N : Nat} (h : 0 < N) : ocsum B N = (N - 1) % (2 ^ B - 1) + 1 := if_neg (by omega)

theorem ocsum_eq_zero_iff (B N : Nat) : ocsum B N = 0 ↔ N = 0 := by
  unfold ocsum
  split <;> simp_all

theorem ocsum_lt {B : Nat} (hB : 0 < B) (N : Nat) : ocsum B N < 2 ^ B := by
  have h2 : 2 ≤ 2 ^ B := by simpa using Nat.pow_le_pow_right (n := 2) (by omega) hB
  unfold ocsum
  split
  · omega
  · have := Nat.mod_lt (N - 1) (y := 2 ^ B - 1) (by omega)
    omega

theorem ocsum_modEq (B N : Nat) : ocsum B N ≡ N [MOD 2 ^ B - 1] := by
  unfold ocsum
  split
  · next h => rw [h]
  · next h =>
    have : (N - 1) % (2 ^ B - 1) + 1 ≡ (N - 1) + 1 [MOD 2 ^ B - 1] :=
      Nat.ModEq.add_right 1 (Nat.mod_modEq _ _)
    rwa [Nat.sub_add_cancel (by omega)] at this

/-- Two values of the width that agree modulo 2^B - 1 and vanish together are equal. -/
theorem eq_of_modEq_of_zero_iff {M a b : Nat} (ha : a ≤ M) (hb : b ≤ M) (h : a ≡ b [MOD M])
    (hz : a = 0 ↔ b = 0) : a = b := by
  rcases Nat.eq_zero_or_pos a with h0 | h0
  · rw [h0, hz.mp h0]
  have hb0 : 0 < b := by omega
  have h1 : (a - 1) + 1 ≡ (b - 1) + 1 [MOD M] := by
    rwa [Nat.sub_add_cancel h0, Nat.sub_add_cancel hb0]
  have h2 := Nat.ModEq.add_right_cancel' 1 h1
  have h3 : a - 1 = b - 1 := Nat.ModEq.eq_of_lt_of_lt h2 (by omega) (by omega)
  omega

/-- What characterises the one's-complement sum. -/
theorem eq_ocsum {B v N : Nat} (hv : v < 2 ^ B) (h : v ≡ N [MOD 2 ^ B - 1]) (hz : v = 0 ↔ N = 0) :
    v = ocsum B N := by
  rcases Nat.eq_zero_or_pos B with h0 | h0
  · subst h0
    have hv0 : v = 0 := by simpa using hv
    rw [hv0, eq_comm, ocsum_eq_zero_iff, ← hz, hv0]
  have hlt := ocsum_lt h0 N
  refine eq_of_modEq_of_zero_iff (M := 2 ^ B - 1) (by omega) (by omega) (h.trans (ocsum_modEq B N).symm) ?_
  rw [hz, ocsum_eq_zero_iff]

theorem ocsum_of_lt {B v : Nat} (hv : v < 2 ^ B) : ocsum B v = v := (eq_ocsum hv rfl Iff.rfl).symm

/-- The sum depends on N only modulo 2^B - 1 and on whether N is 0. -/
theorem ocsum_congr {B N N' : Nat} (h : N ≡ N' [MOD 2 ^ B - 1]) (hz : N = 0 ↔ N' = 0) :
    ocsum B N = ocsum B N' := by
  rcases Nat.eq_zero_or_pos B with h0 | h0
  · subst h0
    have : ∀ n, ocsum 0 n = if n = 0 then 0 else n := by
      intro n; unfold ocsum; split <;> simp; omega
    have h' : N % 0 = N' % 0 := h
    simp only [Nat.mod_zero] at h'
    rw [h']
  · exact eq_ocsum (ocsum_lt h0 N) ((ocsum_modEq B N).trans h) (by rw [ocsum_eq_zero_iff, hz])

/-- A partial sum may be folded before more is added (R107). -/
theorem ocsum_add (B x y : Nat) : ocsum B (ocsum B x + y) = ocsum B (x + y) := by
  refine ocsum_congr ((ocsum_modEq B x).add_right y) ?_
  have := ocsum_eq_zero_iff B x
  omega

/-- Folding to a narrower width whose modulus divides the wider one. -/
theorem ocsum_narrow {B C : Nat} (h : 2 ^ C - 1 ∣ 2 ^ B - 1) (N : Nat) : ocsum C (ocsum B N) = ocsum C N :=
  ocsum_congr ((ocsum_modEq B N).of_dvd h) (ocsum_eq_zero_iff B N)

theorem ocsum32_ocsum64 (N : Nat) : ocsum 32 (ocsum 64 N) = ocsum 32 N := ocsum_narrow (by norm_num) N

theorem ocsum16_ocsum32 (N : Nat) : ocsum 16 (ocsum 32 N) = ocsum 16 N := ocsum_narrow (by norm_num) N

end Sys2Proof.Machine
end

