-- ==== Sys2Proof/Laws/Flags.lean ====
section
/-! SUPPORT. The carry-producing add (00_scope.md R9) as exact arithmetic, and the end-around add. -/

namespace Sys2Proof.Machine

/-- Sum and carry together are the exact sum. -/
theorem addC_exact {n : Nat} (a b : BitVec n) (cin : Bool) (hn : 0 < n) :
    (addC a b cin).1.toNat + 2 ^ n * (addC a b cin).2.toNat = exactSum a b cin := by
  have ha := a.isLt
  have hb := b.isLt
  have hc := Bool.toNat_le cin
  have h2 : 2 ≤ 2 ^ n := by simpa using Nat.pow_le_pow_right (n := 2) (by omega) hn
  have hle : exactSum a b cin < 2 * 2 ^ n := by unfold exactSum; omega
  simp only [addC, BitVec.toNat_ofNat]
  by_cases h : 2 ^ n ≤ exactSum a b cin
  · rw [Nat.mod_eq_sub_mod h, Nat.mod_eq_of_lt (by omega)]
    simp only [h, decide_true, Bool.toNat_true]
    omega
  · rw [Nat.mod_eq_of_lt (by omega)]
    simp [h]

/-- No carry: the sum is exact. -/
theorem addC_no_carry {n : Nat} (a b : BitVec n) (cin : Bool) (h : exactSum a b cin < 2 ^ n) :
    (addC a b cin).1.toNat = exactSum a b cin ∧ (addC a b cin).2 = false := by
  simp only [addC, BitVec.toNat_ofNat, Nat.mod_eq_of_lt h, decide_eq_false_iff_not, not_le]
  exact ⟨trivial, h⟩

/-- The end-around add is the one's-complement sum of its operands (41_fold.md R120, R123). -/
theorem endAroundAdd_toNat {n : Nat} (a b : BitVec n) (hn : 0 < n) :
    (endAroundAdd a b).toNat = ocsum n (a.toNat + b.toNat) := by
  have ha := a.isLt
  have hb := b.isLt
  have h1 := addC_exact a b false hn
  have hs := (addC a b false).1.isLt
  simp only [exactSum, Bool.toNat_false, Nat.add_zero] at h1
  have hlt : exactSum (addC a b false).1 0 (addC a b false).2 < 2 ^ n := by
    simp only [exactSum, BitVec.toNat_zero, Nat.add_zero, BitVec.ofNat_eq_ofNat]
    cases hc : (addC a b false).2 <;> simp only [hc, Bool.toNat_false, Bool.toNat_true] at h1 ⊢ <;> omega
  have h2 := (addC_no_carry _ _ _ hlt).1
  simp only [exactSum, BitVec.toNat_zero, Nat.add_zero, BitVec.ofNat_eq_ofNat] at h2 hlt
  rw [endAroundAdd, BitVec.ofNat_eq_ofNat, h2]
  have h2n : 2 ≤ 2 ^ n := by simpa using Nat.pow_le_pow_right (n := 2) (by omega) hn
  refine eq_ocsum hlt ?_ ?_
  · rw [← h1]
    refine Nat.ModEq.add_left _ ?_
    have : 2 ^ n ≡ 1 [MOD 2 ^ n - 1] := by
      have h := Nat.add_modEq_left (n := 2 ^ n - 1) (a := 1)
      rwa [Nat.sub_add_cancel (by omega)] at h
    simpa using (this.mul_right (addC a b false).2.toNat).symm
  · cases hc : (addC a b false).2 <;> simp only [hc, Bool.toNat_false, Bool.toNat_true] at h1 ⊢ <;> omega

end Sys2Proof.Machine
end

