-- ==== Sys2Proof/Laws/HostPort.lean ====
section
/-! SUPPORT. The register port: halves of 64-bit registers as numbers (10_state.md R38), which register an access
reaches (R23), and what a register write can do (44_control.md R181, R186, R189). -/

namespace Sys2Proof.Machine

theorem loHalf_toNat (x : DWord) : (loHalf x).toNat = x.toNat % 2 ^ 32 := by
  simp [loHalf, BitVec.extractLsb'_toNat]

theorem hiHalf_toNat (x : DWord) : (hiHalf x).toNat = x.toNat / 2 ^ 32 := by
  have := x.isLt
  simp only [hiHalf, BitVec.extractLsb'_toNat, Nat.shiftRight_eq_div_pow]
  omega

theorem append_toNat (h l : Word) : (h ++ l : BitVec 64).toNat = h.toNat * 2 ^ 32 + l.toNat := by
  have hl := l.isLt
  simp only [BitVec.toNat_append]
  rw [← Nat.shiftLeft_add_eq_or_of_lt hl, Nat.shiftLeft_eq]

theorem setLo_toNat (x : DWord) (v : Word) : (setLo x v).toNat = x.toNat / 2 ^ 32 * 2 ^ 32 + v.toNat := by
  rw [setLo, append_toNat, hiHalf_toNat]

theorem setHi_toNat (x : DWord) (v : Word) : (setHi x v).toNat = v.toNat * 2 ^ 32 + x.toNat % 2 ^ 32 := by
  rw [setHi, append_toNat, loHalf_toNat]

/-- An aligned 32-bit access at REG_BASE + off reaches the register of that offset (10_state.md R23). -/
theorem accessedReg_at {p : Platform} {addr : DWord} {off : Nat} (h : addr.toNat = p.regBase.toNat + off)
    (hlt : off < 64) (h4 : off % 4 = 0) : accessedReg p addr .bits32 = .ok (regAtOffset off) := by
  have hr : regOffset p addr = some off := by
    rw [regOffset, if_pos (by simp only [Config.regBlockBytes]; omega), h]
    simp
  simp [accessedReg, hr, h4]

/-- What a register write can do to the block. -/
inductive WriteEnd (v : Word) (s : State) : State → Prop where
  | ignored : WriteEnd v s s
  | overrun : WriteEnd v s (ignoreWrite s)
  | ctrl : WriteEnd v s { s with unit := s.unit.writeCtrl v }
  | status : WriteEnd v s { s with unit := s.unit.writeStatus v }
  | accepted (hb : s.unit.busy = false) (he : s.unit.errv = true → opcField v = 0xFF) :
      WriteEnd v s (acceptCommand v s)
  | stored (r : Reg) (hb : s.unit.busy = false) : WriteEnd v s { s with unit := s.unit.storeOperand r v }

theorem offerOperand_end (r : Reg) (v : Word) (s : State) : WriteEnd v s (offerOperand r v s) := by
  unfold offerOperand
  split
  · exact .overrun
  · next h => exact .stored r (Bool.eq_false_iff.mpr h)

theorem offerCommand_end (v : Word) (s : State) : WriteEnd v s (offerCommand v s) := by
  unfold offerCommand
  split
  · exact .overrun
  next h =>
  split
  · exact .overrun
  · next he =>
    refine .accepted (Bool.eq_false_iff.mpr h) (fun hv => ?_)
    by_contra hne
    exact he ⟨hv, hne⟩

/-- Every register write ends in one of these ways. -/
theorem writeReg_end (r : Reg) (v : Word) (s : State) : WriteEnd v s (writeReg r v s) := by
  cases r with
  | id => exact .ignored
  | errAddrLo => exact .ignored
  | errAddrHi => exact .ignored
  | reserved => exact .ignored
  | ctrl => exact .ctrl
  | status => exact .status
  | cmd => exact offerCommand_end v s
  | addrLo => exact offerOperand_end .addrLo v s
  | addrHi => exact offerOperand_end .addrHi v s
  | len => exact offerOperand_end .len v s
  | sumIn => exact offerOperand_end .sumIn v s
  | accLo => exact offerOperand_end .accLo v s
  | accHi => exact offerOperand_end .accHi v s
  | dataLo => exact offerOperand_end .dataLo v s
  | dataHi => exact offerOperand_end .dataHi v s
  | result => exact offerOperand_end .result v s

/-- An operand store touches no status, no control and no ERRADDR. -/
theorem storeOperand_same (u : CsumUnit) (r : Reg) (v : Word) :
    u.storeOperand r v = { u with
      addr := (u.storeOperand r v).addr, len := (u.storeOperand r v).len, sumIn := (u.storeOperand r v).sumIn
      acc := (u.storeOperand r v).acc, data := (u.storeOperand r v).data
      result := (u.storeOperand r v).result } := by
  cases r <;> rfl

end Sys2Proof.Machine
end

