-- ==== Sys2Proof/Laws/Kernel.lean ====
section
/-! SUPPORT. What the loader and the parts of the kernel compute, as integers: a closed chain, a block, a remainder
and a tail each add the byte sum of their bytes to the accumulator, as one's-complement sums (43_kernel.md R150,
R154). -/

namespace Sys2Proof.Machine

/-! ### byte sums -/

theorem byteSum_zero (rd : DWord → Byte) (p : DWord) : byteSum rd p 0 = 0 := rfl

theorem byteSum_succ (rd : DWord → Byte) (p : DWord) (k : Nat) :
    byteSum rd p (k + 1) = byteSum rd p k + (rd (p + BitVec.ofNat 64 k)).toNat * 2 ^ (8 * (k % 8)) :=
  Finset.sum_range_succ _ _

theorem ptr_add (p : DWord) (i j : Nat) :
    p + BitVec.ofNat 64 i + BitVec.ofNat 64 j = p + BitVec.ofNat 64 (i + j) := by
  rw [BitVec.add_assoc, ← BitVec.ofNat_add]

/-- A byte sum splits at a multiple of 8. -/
theorem byteSum_split (rd : DWord → Byte) (p : DWord) (m r : Nat) (hm : m % 8 = 0) :
    byteSum rd p (m + r) = byteSum rd p m + byteSum rd (p + BitVec.ofNat 64 m) r := by
  induction r with
  | zero => rfl
  | succ r ih =>
    rw [← Nat.add_assoc, byteSum_succ, ih, byteSum_succ, ptr_add]
    have : (m + r) % 8 = r % 8 := by omega
    rw [this, Nat.add_assoc]

/-- Byte sums over the same bytes are equal. -/
theorem byteSum_congr {rd rd' : DWord → Byte} {p p' : DWord} {n : Nat}
    (h : ∀ k < n, rd (p + BitVec.ofNat 64 k) = rd' (p' + BitVec.ofNat 64 k)) :
    byteSum rd p n = byteSum rd' p' n :=
  Finset.sum_congr rfl (fun j hj => by rw [h j (Finset.mem_range.mp hj)])

/-! ### the loader -/

/-- `MemRead` of up to 8 bytes is their byte sum, and fits its width (20_memory.md R62). -/
theorem memRead_toNat (rd : DWord → Byte) (a : DWord) (n : Nat) (hn : n ≤ 8) :
    (memRead rd a n).toNat = byteSum rd a n ∧ byteSum rd a n < 2 ^ (8 * n) := by
  induction n with
  | zero => exact ⟨rfl, by simp [byteSum_zero]⟩
  | succ k ih =>
    obtain ⟨h1, h2⟩ := ih (by omega)
    have hb := (rd (a + BitVec.ofNat 64 k)).isLt
    have hk : k % 8 = k := Nat.mod_eq_of_lt (by omega)
    have hp : (2 : Nat) ^ (8 * (k + 1)) = 2 ^ (8 * k) * 256 := by rw [Nat.mul_add, pow_add]; rfl
    have hle : (2 : Nat) ^ (8 * (k + 1)) ≤ 2 ^ 64 := Nat.pow_le_pow_right (by omega) (by omega)
    have hm : (rd (a + BitVec.ofNat 64 k)).toNat * 2 ^ (8 * k) ≤ 255 * 2 ^ (8 * k) :=
      Nat.mul_le_mul_right _ (by omega)
    have hlt : byteSum rd a (k + 1) < 2 ^ (8 * (k + 1)) := by
      rw [byteSum_succ, hk]
      omega
    refine ⟨?_, hlt⟩
    rw [byteSum_succ, hk] at hlt ⊢
    simp only [memRead, BitVec.toNat_add, h1, BitVec.toNat_shiftLeft, BitVec.toNat_setWidth, Nat.shiftLeft_eq]
    rw [Nat.mod_eq_of_lt (a := (rd _).toNat) (by omega), Nat.mod_eq_of_lt (a := (rd _).toNat * _) (by omega),
      Nat.mod_eq_of_lt (by omega)]

theorem loadTail_toNat (rd : DWord → Byte) (a : DWord) (n : Nat) (hn : n ≤ 8) :
    (loadTail rd a n).toNat = byteSum rd a n := (memRead_toNat rd a n hn).1

/-! ### chains -/

/-- What is kept along a chain: accumulator and carry together are congruent to the integer sum so far and vanish
with it, and a pending carry leaves room for itself (40_accumulator.md R103, R105). -/
structure ChainInv (r : DWord × Bool) (N : Nat) : Prop where
  congruent : r.1.toNat + r.2.toNat ≡ N [MOD 2 ^ 64 - 1]
  zero : r.1.toNat + r.2.toNat = 0 ↔ N = 0
  room : r.1.toNat + r.2.toNat < 2 ^ 64

theorem chainInv_start (acc : DWord) : ChainInv (acc, false) acc.toNat :=
  ⟨rfl, by simp, by simpa using acc.isLt⟩

theorem pow64_mul_modEq (c : Nat) : 2 ^ 64 * c ≡ c [MOD 2 ^ 64 - 1] := by
  have h : 2 ^ 64 ≡ 1 [MOD 2 ^ 64 - 1] := by decide
  simpa using h.mul_right c

/-- An add with the pending carry keeps it. -/
theorem chainInv_add {r : DWord × Bool} {N : Nat} (h : ChainInv r N) (w : DWord) :
    ChainInv (addC r.1 w r.2) (N + w.toNat) := by
  obtain ⟨h1, h2, h3⟩ := h
  have he := addC_exact r.1 w r.2 (by omega)
  have hs := (addC r.1 w r.2).1.isLt
  have hw := w.isLt
  have hc := Bool.toNat_le (addC r.1 w r.2).2
  unfold exactSum at he
  refine ⟨?_, ?_, ?_⟩
  · have hk : r.1.toNat + w.toNat + r.2.toNat ≡ N + w.toNat [MOD 2 ^ 64 - 1] := by
      rw [Nat.add_right_comm]
      exact h1.add_right _
    rw [← he] at hk
    exact ((pow64_mul_modEq _).symm.add_left _).trans hk
  · omega
  · omega

/-- Closing a chain gives the one's-complement sum. -/
theorem closeChain_toNat {r : DWord × Bool} {N : Nat} (h : ChainInv r N) :
    (closeChain r).toNat = ocsum 64 N := by
  have hlt : exactSum r.1 (0 : DWord) r.2 < 2 ^ 64 := by
    simpa [exactSum] using h.room
  have hv : (closeChain r).toNat = r.1.toNat + r.2.toNat := by
    rw [closeChain, (addC_no_carry _ _ _ hlt).1]
    simp [exactSum]
  rw [hv]
  exact eq_ocsum h.room h.congruent h.zero

theorem chainInv_chain (rd : DWord → Byte) (p acc : DWord) (k : Nat) :
    ChainInv (chain rd p acc k) (acc.toNat + byteSum rd p (8 * k)) := by
  induction k with
  | zero => exact chainInv_start acc
  | succ k ih =>
    have h := chainInv_add ih (loadTail rd (p + BitVec.ofNat 64 (8 * k)) 8)
    rw [loadTail_toNat _ _ _ le_rfl, Nat.add_assoc, ← byteSum_split rd p (8 * k) 8 (by omega)] at h
    exact h

theorem addWords_toNat (rd : DWord → Byte) (k : Nat) (p acc : DWord) :
    (addWords rd k p acc).toNat = ocsum 64 (acc.toNat + byteSum rd p (8 * k)) :=
  closeChain_toNat (chainInv_chain rd p acc k)

/-! ### the steps of the kernel -/

theorem addBlocks_toNat (rd : DWord → Byte) (b : Nat) (p acc : DWord) :
    (addBlocks rd b p acc).toNat = ocsum 64 (acc.toNat + byteSum rd p (64 * b)) := by
  induction b generalizing p acc with
  | zero => simpa [addBlocks, byteSum_zero] using (ocsum_of_lt acc.isLt).symm
  | succ b ih =>
    rw [addBlocks, ih, addWords_toNat, ocsum_add]
    have h := byteSum_split rd p 64 (64 * b) (by omega)
    rw [show 64 * (b + 1) = 64 + 64 * b by omega, h, Nat.add_assoc]
    rfl

/-- Where steps 2 to 4 stand: the pointer is `m` bytes on, and the accumulator has the sum of those bytes. -/
structure SumAt (rd : DWord → Byte) (p acc : DWord) (m : Nat) (x : DWord × DWord) : Prop where
  pointer : x.1 = p + BitVec.ofNat 64 m
  sum : x.2.toNat = ocsum 64 (acc.toNat + byteSum rd p m)

theorem sumAt_remainder {rd : DWord → Byte} {p acc : DWord} {m n g : Nat} {x : DWord × DWord}
    (h : SumAt rd p acc m x) (hm : m % 8 = 0) (hg : g % 8 = 0) :
    SumAt rd p acc (m + if n &&& g ≠ 0 then g else 0) (addRemainder rd n g x) := by
  unfold addRemainder
  split
  · refine ⟨by rw [h.pointer, ptr_add], ?_⟩
    rw [addWords_toNat, h.sum, ocsum_add, byteSum_split rd p m g hm, h.pointer,
      show 8 * (g / 8) = g by omega, Nat.add_assoc]
  · simpa using h

theorem sumAt_tail {rd : DWord → Byte} {p acc : DWord} {m n : Nat} {x : DWord × DWord}
    (h : SumAt rd p acc m x) (hm : m % 8 = 0) :
    (addTail rd n x).toNat = ocsum 64 (acc.toNat + byteSum rd p (m + (n &&& 7))) := by
  have h7 : n &&& 7 < 8 := lt_of_le_of_lt Nat.and_le_right (by omega)
  unfold addTail
  split
  · rw [closeChain_toNat (chainInv_add (chainInv_start x.2) _), loadTail_toNat _ _ _ (by omega), h.sum,
      ocsum_add, byteSum_split rd p m _ hm, h.pointer, Nat.add_assoc]
  · next h0 =>
    have h0 : n &&& 7 = 0 := by simpa using h0
    rw [h.sum, h0, Nat.add_zero]

/-- The block loop, the three bit tests and the tail together cover the length. -/
theorem parts_cover (n : Nat) :
    64 * (n / 64) + (if n &&& 32 ≠ 0 then 32 else 0) + (if n &&& 16 ≠ 0 then 16 else 0)
      + (if n &&& 8 ≠ 0 then 8 else 0) + (n &&& 7) = n := by
  have h : ∀ g < 64, n &&& g = (n % 64) &&& g := by
    intro g hg
    have h1 : n % 64 &&& g = (n &&& g) % 64 := by
      rw [show (64 : Nat) = 2 ^ 6 by rfl, Nat.and_mod_two_pow, Nat.mod_eq_of_lt (a := g) hg]
    rw [h1, Nat.mod_eq_of_lt (lt_of_le_of_lt Nat.and_le_right hg)]
  rw [h 32 (by omega), h 16 (by omega), h 8 (by omega), h 7 (by omega)]
  have hr : n % 64 < 64 := Nat.mod_lt _ (by omega)
  have key : ∀ r < 64, (if r &&& 32 ≠ 0 then 32 else 0) + (if r &&& 16 ≠ 0 then 16 else 0)
      + (if r &&& 8 ≠ 0 then 8 else 0) + (r &&& 7) = r := by decide
  have := key (n % 64) hr
  omega

/-- Steps 2 to 4 add the byte sum of the `n` bytes (R154). -/
theorem sumBytes_toNat (rd : DWord → Byte) (p acc : DWord) (n : Nat) :
    (sumBytes rd p n acc).toNat = ocsum 64 (acc.toNat + byteSum rd p n) := by
  have h0 : SumAt rd p acc (64 * (n / 64)) (p + BitVec.ofNat 64 (64 * (n / 64)), addBlocks rd (n / 64) p acc) :=
    ⟨rfl, addBlocks_toNat rd _ p acc⟩
  have h1 := sumAt_remainder (n := n) (g := 32) h0 (by omega) (by omega)
  have h2 := sumAt_remainder (n := n) (g := 16) h1 (by split <;> omega) (by omega)
  have h3 := sumAt_remainder (n := n) (g := 8) h2 (by split <;> split <;> omega) (by omega)
  have h4 := sumAt_tail (n := n) h3 (by split <;> split <;> split <;> omega)
  rwa [parts_cover] at h4

end Sys2Proof.Machine
end

