-- ==== Sys2Proof/Laws/Step.lean ====
section
/-! SUPPORT. Everything one step can do (44_control.md R180): the block's move, or one event from outside. -/

namespace Sys2Proof.Machine

/-- What every store keeps is kept by any number of stores. -/
theorem stores_keep {P : State → Prop} (hP : ∀ a b s, P s → P (storeReachesMemory a b s))
    (cells : List (DWord × Byte)) {s : State} (h : P s) :
    P (cells.foldl (fun t c => storeReachesMemory c.1 c.2 t) s) := by
  induction cells generalizing s with
  | nil => exact h
  | cons c cells ih => exact ih (hP _ _ _ h)

/-- What an event other than the block's turn can do. -/
inductive EventEnd (e : Event) (s : State) : State → Prop where
  | write (v : Word) {t : State} (h : WriteEnd v s t) : EventEnd e s t
  | read (words : List Word) : EventEnd e s { s with reads := words }
  | reset (he : e = .hardwareReset) : EventEnd e s (resetUnit s)
  | waiting (cells : List (DWord × Byte)) : EventEnd e s { s with unseen := cells }
  | port (p : PortImage) (hp : Memory.wf s.port.mem = true → Memory.wf p.mem = true) : EventEnd e s (changePort p s)
  | reach (cells waiting : List (DWord × Byte)) :
      EventEnd e s (cells.foldl (fun t c => storeReachesMemory c.1 c.2 t) { s with unseen := waiting })

theorem takeEvent_end {e : Event} {s t : State} (he : e ≠ .blockTurn) (h : takeEvent e s = .next t) :
    EventEnd e s t := by
  cases e with
  | hostWrite addr width v =>
    simp only [takeEvent, hostWrite] at h
    split at h
    · cases h
    · cases h
      exact .write v (writeReg_end _ _ _)
  | hostRead addr width =>
    simp only [takeEvent, hostRead] at h
    split at h
    · cases h
    · cases h
      exact .read _
  | blockTurn => exact absurd rfl he
  | hardwareReset =>
    cases h
    exact .reset rfl
  | agentStore a b =>
    cases h
    exact .port _ (fun hm => Memory.wf_write a b hm)
  | hostStore a b =>
    cases h
    unfold hostStore
    split
    · exact .port _ (fun hm => Memory.wf_write a b hm)
    · exact .waiting _
  | storesReach a n =>
    cases h
    exact .reach _ _
  | portMap regions =>
    cases h
    exact .port _ id

/-- What one step can do when it answers a next state. -/
inductive StepEnd (s : State) : State → Prop where
  | idle (hb : s.BlockMoves) (hp : s.unit.pending = none) : StepEnd s s.afterMove
  | undecoded (hb : s.BlockMoves) (w : Word) (hp : s.unit.pending = some w) (e : ErrCode)
      (hd : decode w = .error e) : StepEnd s (fail e none s.afterMove)
  | command (hb : s.BlockMoves) (w : Word) (hp : s.unit.pending = some w) (i : Instr) (hd : decode w = .ok i)
      {t : State} (ht : exec i s.afterMove = .next t) : StepEnd s t
  | event (e : Event) (he : s.events.head? = some e) (hne : e ≠ .blockTurn) {t : State}
      (ht : EventEnd e s.afterMove t) : StepEnd s t

theorem step_event_head {s : State} {e : Event} (h : s.events.head? = some e) :
    step s = takeEvent e s.afterMove := by
  cases hs : s.events with
  | nil => simp [hs] at h
  | cons e' rest =>
    have he : e' = e := by simpa [hs] using h
    exact step_event (he ▸ hs)

theorem step_end {s t : State} (h : step s = .next t) : StepEnd s t := by
  by_cases hb : s.BlockMoves
  · rw [step_block hb] at h
    cases hp : s.unit.pending with
    | none =>
      have hi : blockTurn s.afterMove = .next s.afterMove := by
        simp only [blockTurn, show s.afterMove.unit.pending = none from hp]
      rw [hi] at h
      cases h
      exact .idle hb hp
    | some w =>
      rw [blockTurn_pending (show s.afterMove.unit.pending = some w from hp)] at h
      cases hd : decode w with
      | error e =>
        rw [execWord_error hd] at h
        cases h
        exact .undecoded hb w hp e hd
      | ok i =>
        rw [execWord_ok hd] at h
        exact .command hb w hp i hd h
  · cases hs : s.events with
    | nil => exact absurd (.inl hs) hb
    | cons e rest =>
      have he : s.events.head? = some e := by rw [hs]; rfl
      have hne : e ≠ .blockTurn := by
        rintro rfl
        exact hb (.inr he)
      rw [step_event_head he] at h
      exact .event e he hne (takeEvent_end hne h)

end Sys2Proof.Machine
end

