-- ==== Sys2Proof/Tests/Slice0.lean ====
section
/-! SUPPORT. The model's own tests, with expected results from 95_test_vectors.md and the tables and examples of the
rules (the comment names the vector or rule), and, for every statement with hypotheses, a state and operands that meet
them (`witness_<statement>`). -/

namespace Sys2Proof.Tests

open Sys2Proof.Machine

/-! ### WellFormed: each check refuses an ill-formed term -/

theorem test_wf_ldw_zero : ¬(Instr.ldw 0).WellFormed := by decide
theorem test_wf_ldw_nine : ¬(Instr.ldw 9).WellFormed := by decide
theorem test_wf_ldw_bounds : (Instr.ldw 1).WellFormed ∧ (Instr.ldw 8).WellFormed := by decide

/-! ### Decode: the words written out from R80's fields RSV, IMM, OPC -/

theorem test_decode_init : decode 0b0000000000000000000000000001 = .ok .init := by decide
theorem test_decode_add : decode 0b0000000000000000000000000010 = .ok .add := by decide
theorem test_decode_adc : decode 0b0000000000000000000000000011 = .ok .adc := by decide
theorem test_decode_adc0 : decode 0b0000000000000000000000000100 = .ok .adc0 := by decide
theorem test_decode_fold64 : decode 0b0000000000000000000000010000 = .ok .fold64 := by decide
theorem test_decode_fold32 : decode 0b0000000000000000000000010001 = .ok .fold32 := by decide
theorem test_decode_swap16 : decode 0b0000000000000000000000010010 = .ok .swap16 := by decide
theorem test_decode_ldw : decode 0b0000000000000000001100100000 = .ok (.ldw 3) := by decide
theorem test_decode_csum : decode 0b0000000000000000000000110000 = .ok .csum := by decide
theorem test_decode_csum40 : decode 0b0000000000000000001000110001 = .ok (.csum40 .flagpair) := by decide
theorem test_decode_srst : decode 0b0000000000000000000011111111 = .ok .srst := by decide

/-- R85; R87; D11, D12, D13; K29d. -/
theorem test_decode_errors :
    decode 0x00 = .error .illegal ∧ decode 0xFE = .error .illegal ∧ decode 0x1030 = .error .reserved ∧
    decode 0x101 = .error .reserved ∧ decode 0x20 = .error .badCount ∧ decode 0x920 = .error .badCount ∧
    decode 0x1020 = .error .reserved ∧ decode 0x431 = .error .reserved ∧ decode 0x1FF = .error .reserved := by
  decide

theorem test_decodeTableWord :
    decodeTableWord 32 0x30 = some .csum ∧ decodeTableWord 8 0xFF = some .srst ∧ decodeTableWord 32 0x20 = none := by
  decide

/-! ### One step -/

/-- A state with this block, this memory, no other region, and nothing scheduled. -/
def st (u : CsumUnit) (cells : Memory) : State := { State.reset with unit := u, port := { mem := cells, regions := [] } }

/-- The same, running the command word `w`. -/
def running (w : Word) (u : CsumUnit) (cells : Memory) : State :=
  st { u with pending := some w, busy := true } cells

/-- The block after one step, where the step answers a next state. -/
def unitAfter (s : State) : Option CsumUnit :=
  match step s with
  | .next t => some t.unit
  | .fault _ => none
  | .refused _ => none

/-- The block after it ran the word `w`. -/
def ran (w : Word) (u : CsumUnit) (cells : Memory) : Option CsumUnit := unitAfter (running w u cells)

abbrev zero : CsumUnit := CsumUnit.reset

/-- NINE of 95_test_vectors.md section 2. -/
def nine : Memory :=
  [(0x2000, 0x11), (0x2001, 0x22), (0x2002, 0x33), (0x2003, 0x44), (0x2004, 0x55), (0x2005, 0x66), (0x2006, 0x77),
   (0x2007, 0x88), (0x2008, 0x99)]

/-- The first 16 bytes of PAT. -/
def pat : Memory :=
  [(0x1000, 0x07), (0x1001, 0x24), (0x1002, 0x41), (0x1003, 0x5E), (0x1004, 0x7B), (0x1005, 0x98), (0x1006, 0xB5),
   (0x1007, 0xD2), (0x1008, 0xEF), (0x1009, 0x0C), (0x100A, 0x29), (0x100B, 0x46), (0x100C, 0x63), (0x100D, 0x80),
   (0x100E, 0x9D), (0x100F, 0xBA)]

/-- A1. -/
theorem test_init : ran 0x01 { zero with sumIn := 0xDEADBEEF, acc := 0x4D, cf := true } [] =
    some { zero with sumIn := 0xDEADBEEF, acc := 0xDEADBEEF, done := true } := by decide
/-- A3. -/
theorem test_add : ran 0x02 { zero with acc := 0xFFFFFFFFFFFFFFFF, cf := true, data := 1 } [] =
    some { zero with acc := 0, cf := true, data := 1, done := true } := by decide
/-- A4. -/
theorem test_add_drops_carry : ran 0x02 { zero with cf := true } [] = some { zero with done := true } := by decide
/-- A5. -/
theorem test_adc : ran 0x03 { zero with acc := 0x8000000000000000, cf := true, data := 0x8000000000000000 } [] =
    some { zero with acc := 1, cf := true, data := 0x8000000000000000, done := true } := by decide
/-- A6. -/
theorem test_adc_max : ran 0x03 { zero with acc := 0xFFFFFFFFFFFFFFFF, cf := true, data := 0xFFFFFFFFFFFFFFFF } [] =
    some { zero with acc := 0xFFFFFFFFFFFFFFFF, cf := true, data := 0xFFFFFFFFFFFFFFFF, done := true } := by decide
/-- A9. -/
theorem test_adc0 : ran 0x04 { zero with acc := 0xFFFFFFFFFFFFFFFE, cf := true } [] =
    some { zero with acc := 0xFFFFFFFFFFFFFFFF, done := true } := by decide
/-- A10. -/
theorem test_adc0_wrap : ran 0x04 { zero with acc := 0xFFFFFFFFFFFFFFFF, cf := true } [] =
    some { zero with acc := 0, cf := true, done := true } := by decide
/-- F4. -/
theorem test_fold64 : ran 0x10 { zero with acc := 0x123456789ABCDEF0, cf := true } [] =
    some { zero with acc := 0x123456789ABCDEF0, cf := true, result := 0xACF13568, done := true } := by decide
/-- F7. -/
theorem test_fold64_all_ones : (ran 0x10 { zero with acc := 0xFFFFFFFE00000001 } []).map (·.result) =
    some 0xFFFFFFFF := by decide
/-- F16. -/
theorem test_fold32 : ran 0x11 { zero with result := 0xABCD1234 } [] =
    some { zero with result := 0xBE01, done := true } := by decide
/-- F9. -/
theorem test_fold32_carry : (ran 0x11 { zero with result := 0x0001FFFF } []).map (·.result) = some 1 := by decide
/-- F18. -/
theorem test_swap16 : ran 0x12 { zero with result := 0xABCD1234 } [] =
    some { zero with result := 0x3412, done := true } := by decide
/-- D9. -/
theorem test_ldw : ran 0x820 { zero with addr := 0x2001 } nine =
    some { zero with addr := 0x2001, data := 0x9988776655443322, done := true } := by decide
/-- K19b: an even address, a tail, a seed with bits 31:16 set. -/
theorem test_csum : (ran 0x30 { zero with addr := 0x2000, len := 3, sumIn := 0xFFFF0000 } nine).map (·.result) =
    some 0x00322212 := by decide +kernel
/-- Section 6.3, odd address, 15 bytes. -/
theorem test_csum_odd : (ran 0x30 { zero with addr := 0x1001, len := 15 } pat).map (·.result) =
    some 0x8C7B := by decide +kernel
/-- X1 with K29a: 40 bytes of 00 and a negative LEN. -/
theorem test_csum40 : ran 0x131 { zero with addr := 0x5000, len := 0x80000000, sumIn := 0xFFFF } [] =
    some { zero with addr := 0x5000, len := 0x80000000, sumIn := 0xFFFF, result := 0xFFFF, done := true } := by
  decide +kernel
/-- K29c. -/
theorem test_csum40_range : (ran 0x31 { zero with addr := 0xFFFFFFFFFFFFFFD9 } []).map (·.statusWord) =
    some 0x504 := by decide
/-- R190's example. -/
theorem test_srst : ran 0xFF { zero with errv := true, ecode := 3, acc := 7, ie := true } [] = some zero := by decide
/-- R190: a malformed SRST does not reset. -/
theorem test_srst_malformed : ran 0x1FF { zero with errv := true, ecode := 3, acc := 7 } [] =
    some { zero with errv := true, ecode := 2, acc := 7 } := by decide

/-- `s` with a port whose `size` bytes from `base` on are of this kind. -/
def withRegion (kind : RegionKind) (base size : Nat) (s : State) : State :=
  { s with port := { s.port with regions := [{ base := base, size := size, kind := kind }] } }

/-- A port that rejects the reads of the `size` bytes from `base` on. -/
abbrev rejecting (base size : Nat) (s : State) : State := withRegion .rejected base size s

/-- D16. -/
theorem test_bus : unitAfter (rejecting 0x1005 1 (running 0x820 { zero with addr := 0x1000, data := 9 } pat)) =
    some { zero with addr := 0x1000, data := 9, errv := true, ecode := 6, errAddr := 0x1005 } := by decide

/-! ### Host accesses -/

/-- A state whose next event is an aligned 32-bit host write of `v` at offset `off`. -/
def writing (off : Nat) (v : Word) (u : CsumUnit) : State :=
  { st u [] with events := [.hostWrite (BitVec.ofNat 64 (0xF0000000 + off)) .bits32 v] }

/-- A state whose next event is an aligned 32-bit host read at offset `off`. -/
def reading (off : Nat) (u : CsumUnit) : State :=
  { st u [] with events := [.hostRead (BitVec.ofNat 64 (0xF0000000 + off)) .bits32] }

theorem writing_writes (off : Nat) (v : Word) (u : CsumUnit) (h : off < 64) :
    (writing off v u).HostWrites off v :=
  ⟨_, rfl, by rw [BitVec.toNat_ofNat, Nat.mod_eq_of_lt (by omega)]; rfl⟩

theorem reading_reads (off : Nat) (u : CsumUnit) (h : off < 64) : (reading off u).HostReads off :=
  ⟨_, rfl, by rw [BitVec.toNat_ofNat, Nat.mod_eq_of_lt (by omega)]; rfl⟩

/-- R181: accepted. -/
theorem test_accept : unitAfter (writing 0x0C 0x30 { zero with done := true }) =
    some { zero with pending := some 0x30, busy := true } := by decide
/-- R181: ignored with ERRV = 1. -/
theorem test_ignore : unitAfter (writing 0x0C 0x30 { zero with errv := true, ecode := 1 }) =
    some { zero with errv := true, ecode := 1, ovr := true } := by decide
/-- R38: one half is written. -/
theorem test_write_high : unitAfter (writing 0x24 0xAB { zero with acc := 0x1111111122222222 }) =
    some { zero with acc := 0x000000AB22222222 } := by decide
/-- R27: W1C of ERRV and OVR. -/
theorem test_write_status : unitAfter (writing 0x08 0xC { zero with errv := true, ecode := 5, ovr := true, cf := true }) =
    some { zero with cf := true } := by decide
/-- R26: BUSY, OVR and CF. -/
theorem test_status_word : ({ zero with busy := true, ovr := true, cf := true, ecode := 3 } : CsumUnit).statusWord = 0x19 := by
  decide
/-- R24: the value of ID. -/
theorem test_read_id : (match step (reading 0x00 zero) with | .next t => t.reads | _ => []) = [0x43530001] := by decide

/-- The host's interface: the word runs as the first command after reset. -/
theorem test_withFetchWord : unitAfter (State.reset.withFetchWord 32 0x04) = some { zero with done := true } := by
  decide

/-! ### Witnesses: states and operands that meet the hypotheses of the statements -/

theorem running_moves (w : Word) (u : CsumUnit) (m : Memory) :
    (running w u m).BlockMoves ∧ (running w u m).unit.pending = some w := ⟨.inl rfl, rfl⟩

/-- A range with no region in it, clear of the register block. -/
theorem st_ordinary (u : CsumUnit) (m : Memory) (n : Nat) (h : u.addr.toNat + n ≤ 2 ^ 64)
    (hr : u.addr.toNat + n ≤ 0xF0000000 ∨ 0xF0000040 ≤ u.addr.toNat) : (st u m).Ordinary u.addr n := by
  refine ⟨h, ?_, rfl⟩
  have h1 : (st u m).hasSideEffects u.addr n =
      Region.touches { base := 0xF0000000, size := 64, kind := .device } u.addr.toNat n := rfl
  rw [h1, Bool.eq_false_iff]
  simp only [Region.touches, ne_eq, Bool.and_eq_true, decide_eq_true_eq]
  omega

theorem st_accepts (u : CsumUnit) (m : Memory) (n : Nat) : (st u m).Accepts u.addr n := fun _ _ => rfl

/-- Clauses: the bounds of LDW, a hint, and a word that decodes. -/
theorem witness_DecodeAndEncodeAreInverse :
    (Instr.ldw 1).WellFormed ∧ (Instr.ldw 8).WellFormed ∧ (Instr.csum40 .tree).WellFormed ∧
      decode 0x820 = .ok (.ldw 8) := by decide

theorem witness_DecodeReportsTheFirstFailingCheck :
    (decode 0xFE = .error .illegal ∧ (running 0xFE zero []).BlockMoves) ∧
    (decode 0x431 = .error .reserved ∧ (running 0x431 zero []).BlockMoves) ∧
    (decode 0x920 = .error .badCount ∧ (running 0x920 zero []).BlockMoves) :=
  ⟨⟨by decide, .inl rfl⟩, ⟨by decide, .inl rfl⟩, ⟨by decide, .inl rfl⟩⟩

theorem witness_UnassignedOpcodesFailAsIllegal :
    (0xFFFFFFFE : Word).toNat % 256 = 0xFE ∧ (running 0xFFFFFFFE zero []).BlockMoves ∧
      (running 0xFFFFFFFE zero []).unit.pending = some 0xFFFFFFFE := ⟨by decide, running_moves _ _ _⟩

theorem witness_StepRunsTheDecodedCommand :
    (running 0x04 zero []).BlockMoves ∧ decode 0x04 = .ok .adc0 ∧ decode 0x00 = .error .illegal :=
  ⟨.inl rfl, by decide, by decide⟩

/-- One state for each clause: BUSY; ERRV with another opcode; idle; ERRV with OPC 0xFF. -/
theorem witness_CommandWriteIsAcceptedOrIgnored :
    (let s := writing 0x0C 0x30 { zero with pending := some 1, busy := true }
     s.unit.busy = true ∧ s.HostWrites 0x0C 0x30) ∧
    (let s := writing 0x0C 0x30 { zero with errv := true, ecode := 1 }
     s.unit.busy = false ∧ s.unit.errv = true ∧ (0x30 : Word).toNat % 256 ≠ 0xFF ∧ s.HostWrites 0x0C 0x30) ∧
    (let s := writing 0x0C 0x30 zero
     s.unit.busy = false ∧ s.unit.errv = false ∧ s.HostWrites 0x0C 0x30) ∧
    (let s := writing 0x0C 0x1FF { zero with errv := true, ecode := 1 }
     s.unit.busy = false ∧ s.unit.errv = true ∧ (0x1FF : Word).toNat % 256 = 0xFF ∧ s.HostWrites 0x0C 0x1FF) :=
  ⟨⟨rfl, writing_writes _ _ _ (by decide)⟩, ⟨rfl, rfl, by decide, writing_writes _ _ _ (by decide)⟩,
    ⟨rfl, rfl, writing_writes _ _ _ (by decide)⟩, ⟨rfl, rfl, by decide, writing_writes _ _ _ (by decide)⟩⟩

theorem witness_BusyWritesAreIgnored (off : Nat) (h : off < 64) :
    (writing off 5 { zero with pending := some 1, busy := true }).unit.busy = true ∧
    (writing off 5 { zero with pending := some 1, busy := true }).HostWrites off 5 := ⟨rfl, writing_writes _ _ _ h⟩

/-- A host write at any offset; and the value `x` of the half-register clauses exists. -/
theorem witness_IdleWritesAreStored :
    (∀ off < 64, (writing off 5 zero).unit.busy = false ∧ (writing off 5 zero).HostWrites off 5) ∧
    (0x1111111100000005 : DWord).toNat = (0x1111111122222222 : DWord).toNat / 2 ^ 32 * 2 ^ 32 + (5 : Word).toNat ∧
    (0x0000000522222222 : DWord).toNat = (5 : Word).toNat * 2 ^ 32 + (0x1111111122222222 : DWord).toNat % 2 ^ 32 :=
  ⟨fun _ h => ⟨rfl, writing_writes _ _ _ h⟩, by decide, by decide⟩

theorem witness_HostReadsReturnTheRegisters :
    (0x00, 0x43530001) ∈ registerNumbers zero ∧ (reading 0x00 zero).HostReads 0x00 ∧
      (0x3C, 0) ∈ registerNumbers zero ∧ (reading 0x3C zero).HostReads 0x3C :=
  ⟨by decide, reading_reads _ _ (by decide), by decide, reading_reads _ _ (by decide)⟩

/-- A narrow write at the first offset, a misaligned read at the last. -/
theorem witness_OtherAccessesAreRefused :
    ({ State.reset with events := [.hostWrite 0xF0000000 .bits8 0] } : State).events.head? =
      some (.hostWrite 0xF0000000 .bits8 0) ∧ (0xF0000000 : DWord).toNat = State.reset.platform.regBase.toNat + 0 ∧
    ({ State.reset with events := [.hostRead 0xF000003F .bits32] } : State).events.head? =
      some (.hostRead 0xF000003F .bits32) ∧
    (0xF000003F : DWord).toNat = State.reset.platform.regBase.toNat + 63 ∧ 63 % 4 ≠ 0 := by decide

/-- A commit and a failure. -/
theorem witness_CommandsEndByCommitOrFailure :
    (∃ t, exec .add State.reset = .next t) ∧ (∃ t, exec (.ldw 9) State.reset = .next t) := ⟨⟨_, rfl⟩, ⟨_, rfl⟩⟩

theorem witness_SrstResetsEveryRegister :
    (let s := writing 0x0C 0xFF { zero with errv := true, ecode := 1 }
     s.unit.busy = false ∧ s.HostWrites 0x0C 0xFF) ∧
    (let s := writing 0x0C 0xFF { zero with pending := some 1, busy := true }
     s.unit.busy = true ∧ s.HostWrites 0x0C 0xFF) ∧
    (0x1FF : Word).toNat % 256 = (0xFF : Word).toNat % 256 ∧ (running 0x1FF zero []).BlockMoves :=
  ⟨⟨rfl, writing_writes _ _ _ (by decide)⟩, ⟨rfl, writing_writes _ _ _ (by decide)⟩, by decide, .inl rfl⟩

/-- OnlyWord's last clause, for the other commands with one word: a reserved bit beside each opcode. -/
theorem witness_OnlyWord :
    ([0x01, 0x02, 0x03, 0x04, 0x10, 0x11, 0x12, 0x30] : List Nat).all (fun x =>
      (BitVec.ofNat 32 (x + 0x100)).toNat % 256 == (BitVec.ofNat 32 x).toNat % 256 &&
        BitVec.ofNat 32 (x + 0x100) != BitVec.ofNat 32 x) = true := by decide

theorem witness_OnlyResetStopsARunningCommand :
    let s := writing 0x0C 0xFF { zero with pending := some 1, busy := true }
    s.unit.pending = some 1 ∧ s.unit.busy = true ∧
      s.events.head? = some (.hostWrite 0xF000000C .bits32 0xFF) ∧ ∃ t, step s = .next t := ⟨rfl, rfl, rfl, _, rfl⟩

theorem witness_AcceptedCommandsComplete :
    (running 0x30 { zero with addr := 0x2000, len := 9 } nine).BlockMoves ∧ wordByteCount 0x30 { zero with len := 9 } = 9 ∧
    (running 0x30 { zero with addr := 0x2000, len := 9 } nine).hasSideEffects 0x2000 9 = false ∧
    (running 0x30 { zero with addr := 0x2000, len := 9 } nine).rangeTouches .silent 0x2000 9 = false :=
  ⟨.inl rfl, by decide, by decide, by decide⟩

theorem witness_CtrlKeepsBitZero :
    (writing 0x04 0xFFFFFFFF zero).HostWrites 0x04 0xFFFFFFFF ∧ (reading 0x04 zero).HostReads 0x04 :=
  ⟨writing_writes _ _ _ (by decide), reading_reads _ _ (by decide)⟩

theorem witness_StatusWriteClearsWhatItNames : (writing 0x08 0xE zero).HostWrites 0x08 0xE :=
  writing_writes _ _ _ (by decide)

/-- CF changes under ADD, and under the hardware reset. -/
theorem witness_CarryFlagHasFiveWritersAndReset :
    (unitAfter (running 0x02 { zero with acc := 0xFFFFFFFFFFFFFFFF, data := 1 } [])).map (·.cf) = some true ∧
    (unitAfter { st { zero with cf := true } [] with events := [.hardwareReset] }).map (·.cf) = some false := by decide

/-- ERRADDR changes under RANGE, under BUS and under SRST. -/
theorem witness_ErraddrIsWrittenByRangeAndBusAlone :
    (ran 0x220 { zero with addr := 0xFFFFFFFFFFFFFFFF } []).map (·.errAddr) = some 0xFFFFFFFFFFFFFFFF ∧
    (unitAfter (rejecting 0x1005 1 (running 0x820 { zero with addr := 0x1000 } []))).map (·.errAddr) = some 0x1005 ∧
    (ran 0xFF { zero with errAddr := 7 } []).map (·.errAddr) = some 0 := by decide

theorem witness_ResetValues : ({ State.reset with events := [.hardwareReset] } : State).events.head? = some .hardwareReset := rfl

theorem reset_inv : State.reset.Inv :=
  ⟨⟨rfl, by decide, fun _ => rfl, by decide, by decide, nofun⟩, rfl, nofun, fun _ => rfl⟩

theorem witness_EveryStepKeepsTheInvariant : State.reset.Inv ∧ ∃ t, step State.reset = .next t := ⟨reset_inv, _, rfl⟩

/-- A running command whose state meets the invariant. -/
theorem witness_EveryStepKeepsTheInvariant_running :
    (running 0x04 zero nine).Inv ∧ ∃ t, step (running 0x04 zero nine) = .next t := by
  refine ⟨⟨⟨rfl, by decide, fun _ => rfl, by decide, fun _ => rfl, fun w _ h => ?_⟩, by decide, nofun, nofun⟩, _, rfl⟩
  exact absurd h (by decide)

theorem witness_PlatformNeverChanges : ∃ t, step (writing 0x0C 0x30 zero) = .next t := ⟨_, rfl⟩

theorem witness_TheBlockNeverWritesMemory :
    (∃ t, exec .csum (st zero nine) = .next t) ∧ (running 0x30 zero nine).BlockMoves ∧
      ∃ t, step (running 0x30 zero nine) = .next t := ⟨⟨_, rfl⟩, .inl rfl, _, rfl⟩

theorem witness_MemReadIsLittleEndian : 1 ≤ 8 ∧ 8 ≤ 8 ∧ 1 ≤ 1 ∧ 7 < 8 := by decide

/-- Another memory with the same byte in the range; a rejected last byte. -/
theorem witness_CommandsReadExactlyTheirRange :
    (Memory.read [(0x2000, 0x11), (0x3000, 5)] 0x2000 = Memory.read nine 0x2000 ∧
      ∃ t, exec (.ldw 1) (st { zero with addr := 0x2000 } nine) = .next t) ∧
    (let s := rejecting 0x1007 1 (st { zero with addr := 0x1000 } [])
     MemoryCommand (.ldw 8) s.unit ∧ s.Ordinary s.unit.addr 8 ∧ s.answer (s.unit.addr.toNat + 7) = none) :=
  ⟨⟨by decide, _, rfl⟩, ⟨by decide, by decide⟩, ⟨by decide, by decide, by decide⟩, by decide⟩

/-- The last byte of a device, of the register block, and of a silent region. -/
theorem witness_RangesOutsideOrdinaryMemoryStop :
    (let s := withRegion .device 0x4000 4 (st { zero with addr := 0x4003 } [])
     MemoryCommand (.ldw 1) s.unit ∧ ({ base := 0x4000, size := 4, kind := .device } : Region) ∈ s.port.regions ∧
       0x4000 ≤ s.unit.addr.toNat + 0 ∧ s.unit.addr.toNat + 0 < 0x4000 + 4) ∧
    (let s := st { zero with addr := 0xF000003F } []
     MemoryCommand (.ldw 1) s.unit ∧ s.platform.regBase.toNat ≤ s.unit.addr.toNat + 0 ∧
       s.unit.addr.toNat + 0 < s.platform.regBase.toNat + 64) ∧
    (let s := withRegion .silent 0x4000 4 (st { zero with addr := 0x4003 } [])
     MemoryCommand (.ldw 1) s.unit ∧ ({ base := 0x4000, size := 4, kind := .silent } : Region) ∈ s.port.regions ∧
       0x4000 ≤ s.unit.addr.toNat + 0 ∧ s.unit.addr.toNat + 0 < 0x4000 + 4 ∧
       s.hasSideEffects s.unit.addr 1 = false) :=
  ⟨⟨⟨by decide, by decide⟩, List.mem_cons_self, by decide, by decide⟩,
    ⟨⟨by decide, by decide⟩, by decide, by decide⟩,
    ⟨⟨by decide, by decide⟩, List.mem_cons_self, by decide, by decide, by decide⟩⟩

/-- A command of two images that differ in the one byte read. -/
def raced : State :=
  { st { zero with addr := 0x10 } [(0x10, 1)] with window := [{ mem := [], regions := [] }] }

theorem raced_accepts : raced.Accepts raced.unit.addr 1 := by
  intro k hk
  simp only [State.answer, State.imageFor, raced, State.images, List.length_cons, List.length_nil]
  rcases Nat.mod_two_eq_zero_or_one (Config.raceDraw (st { zero with addr := 0x10 } [(0x10, 1)]).draws
    ((0x10 : DWord).toNat + k)) with h | h <;> simp only [Nat.zero_add, Nat.reduceAdd, st] at h ⊢ <;> rw [h] <;> rfl

theorem witness_RacingStoresGiveOldOrNewBytes :
    (MemoryCommand (.ldw 1) raced.unit ∧ raced.unit.errv = false ∧
      ∃ t, exec (.ldw 1) raced = .next t ∧ t.unit.errv = false) ∧
    (let s : State := { running 0x30 zero [] with events := [.agentStore 0x10 1] }
     s.unit.pending = some 0x30 ∧ s.events.head? = some (.agentStore 0x10 1)) := by
  refine ⟨⟨⟨by decide, by decide⟩, rfl, commit (memoryResult (.ldw 1) raced.memByte raced.unit) (countDraw raced),
    ?_, rfl⟩, rfl, rfl⟩
  rw [exec_memoryCommand (i := .ldw 1) (s := raced) ⟨by decide, by decide⟩]
  exact onRange_accepts ⟨by decide, by decide, by decide⟩ raced_accepts

/-- A coherent host store, one that is not, and two waiting stores of which the last is the one named. -/
theorem witness_StoresChangeOneByteOfMemory :
    Memory.wf nine = true ∧
    (let s : State := { st zero nine with events := [.hostStore 0x2000 0] }
     s.events.head? = some (.hostStore 0x2000 0) ∧ s.platform.coherent = true) ∧
    (let s : State := { st zero nine with
       events := [.hostStore 0x2000 0], platform := { State.reset.platform with coherent := false } }
     s.events.head? = some (.hostStore 0x2000 0) ∧ s.platform.coherent = false) ∧
    (let s : State := { st zero nine with events := [.storesReach 0x2000 1], unseen := [(1, 2), (0x2000, 6)] }
     s.events.head? = some (.storesReach 0x2000 1) ∧ 0x2000 ≤ (0x2000 : DWord).toNat ∧
       (0x2000 : DWord).toNat < 0x2000 + 1 ∧ ∃ earlier, s.unseen = earlier ++ [(0x2000, 6)]) :=
  ⟨by decide, ⟨rfl, rfl⟩, ⟨rfl, rfl⟩, rfl, by decide, by decide, [(1, 2)], rfl⟩

/-- One word and block for each operand error, and a BUS state in which none applies. -/
theorem witness_ErrorsFollowTheirPriority :
    OperandError 0x00 zero 1 0 ∧ OperandError 0x1020 zero 2 0 ∧ OperandError 0x920 zero 4 0 ∧
    OperandError 0x30 { zero with len := 0x80000000, addr := 0xFFFFFFFFFFFFFFFF } 3 0 ∧
    OperandError 0x220 { zero with addr := 0xFFFFFFFFFFFFFFFF } 5 0xFFFFFFFFFFFFFFFF ∧
    (let s := rejecting 0x1005 1 (running 0x820 { zero with addr := 0x1000 } [])
     s.BlockMoves ∧ s.unit.pending = some 0x820 ∧ s.unit.errv = false ∧ (∀ code a, ¬OperandError 0x820 s.unit code a) ∧
       (unitAfter s).map (·.errv) = some true) := by
  refine ⟨.illegal (by decide), .reserved (by decide) (by unfold ReservedBitSet; decide),
    .badCount (by decide) (by unfold ReservedBitSet; decide) (by unfold BadCount; decide),
    .badLength (by decide) (by unfold ReservedBitSet; decide) (by unfold BadCount; decide) (by decide),
    .range (by decide) (by unfold ReservedBitSet; decide) (by unfold BadCount; decide) (by decide) (by decide),
    .inl rfl, rfl, rfl, ?_, by decide⟩
  intro code a h
  cases h with
  | illegal h1 => exact h1 (by decide)
  | reserved _ h2 => exact absurd h2 (by unfold ReservedBitSet; decide)
  | badCount _ _ h3 => exact absurd h3 (by unfold BadCount; decide)
  | badLength _ _ _ h4 => exact absurd h4 (by decide)
  | range _ _ _ _ h5 => exact absurd h5 (by decide)

theorem witness_BusErrorRecordsARejectedAddress :
    let s := rejecting 0x1027 1 (st { zero with addr := 0x1000 } [])
    MemoryCommand (.csum40 .seq) s.unit ∧ s.Ordinary s.unit.addr 40 ∧ s.answer (s.unit.addr.toNat + 39) = none :=
  ⟨trivial, ⟨by decide, by decide, by decide⟩, by decide⟩

theorem witness_IrqIsClearedInFiveWays :
    ((6 : Word).toNat / 2 % 2 = 1 ∧ (6 : Word).toNat / 4 % 2 = 1 ∧ (writing 0x08 6 zero).HostWrites 0x08 6) ∧
    (let s := writing 0x0C 0x30 { zero with done := true }
     s.unit.busy = false ∧ s.unit.errv = false ∧ s.HostWrites 0x0C 0x30) ∧
    ({ State.reset with events := [.hardwareReset] } : State).events.head? = some .hardwareReset ∧
    ((2 : Word).toNat % 2 = 0 ∧ (writing 0x04 2 zero).HostWrites 0x04 2) :=
  ⟨⟨by decide, by decide, writing_writes _ _ _ (by decide)⟩, ⟨rfl, rfl, writing_writes _ _ _ (by decide)⟩, rfl,
    ⟨by decide, writing_writes _ _ _ (by decide)⟩⟩

theorem witness_HardwareResetAbandonsTheCommand :
    ({ running 0x30 zero [] with events := [.hardwareReset] } : State).events.head? = some .hardwareReset := rfl

theorem witness_PendingCarryLeavesRoom :
    ({ zero with cf := true, acc := 0xFFFFFFFFFFFFFFFE } : CsumUnit).acc.toNat ≤ 2 ^ 64 - 2 := by decide

theorem witness_ClosedChainIsTheOnesComplementSum : (st { zero with acc := 5 } []).unit.cf = false := rfl

theorem witness_FoldsAreOnesComplementSums : (0xFFFFFFFFFFFFFFFF : DWord).toNat = ocsum 64 (2 ^ 64 - 1) := by decide

/-- The last eight bytes of the address space, and one byte. -/
theorem witness_LdwLoadsItsBytes :
    (st { zero with addr := 0xFFFFFFFFFFFFFFF8 } []).Ordinary 0xFFFFFFFFFFFFFFF8 8 ∧
    (st { zero with addr := 0xFFFFFFFFFFFFFFF8 } []).Accepts 0xFFFFFFFFFFFFFFF8 8 ∧
    (st { zero with addr := 0x2000 } nine).Ordinary 0x2000 1 ∧ (st { zero with addr := 0x2000 } nine).Accepts 0x2000 1 :=
  ⟨st_ordinary _ _ _ (by decide) (by decide), st_accepts _ _ _, st_ordinary _ _ _ (by decide) (by decide),
    st_accepts _ _ _⟩

theorem witness_TailMechanismsGiveTheLoadersValue :
    1 ≤ 7 ∧ 7 ≤ 7 ∧ 1 = (0x2001 : DWord).toNat % 8 ∧ 1 + 7 ≤ 8 := by decide

/-- The largest length. -/
theorem witness_CsumWritesTheKernelValue :
    (0x7FFFFFFF : Word).toNat < 2 ^ 31 ∧
    (st { zero with addr := 0x2000, len := 0x7FFFFFFF } nine).Ordinary 0x2000 0x7FFFFFFF ∧
    (st { zero with addr := 0x2000, len := 0x7FFFFFFF } nine).Accepts 0x2000 0x7FFFFFFF :=
  ⟨by decide, st_ordinary _ _ _ (by decide) (by decide), st_accepts _ _ _⟩

theorem witness_NegativeLengthIsRejected : 2 ^ 31 ≤ (0x80000000 : Word).toNat := by decide

theorem witness_KernelClosedFormEvenAddress : (0x2000 : DWord).toNat % 2 = 0 := by decide

theorem witness_KernelClosedFormOddAddress :
    (0xFFFFFFFFFFFFFFFF : DWord).toNat % 2 = 1 ∧ 1 ≤ 1 ∧
    (0xAB00 : Half).toNat = ocsum 16 ((0 : Word).toNat + (0xAB : Byte).toNat * 2 ^ 8 +
      ∑ j ∈ Finset.range (1 - 1), (0xAB : Byte).toNat * 2 ^ (8 * (j % 8))) := by
  refine ⟨by decide, by decide, ?_⟩
  rw [Nat.sub_self, Finset.range_zero, Finset.sum_empty]
  decide

theorem witness_UpperHalfIsZeroOnlyOnTheOddPath : (1 : DWord).toNat % 2 = 1 ∧ 1 ≤ 1 := by decide

theorem witness_KernelDependsOnBytesAndParity :
    (1 : DWord).toNat % 2 = (3 : DWord).toNat % 2 ∧
    ∀ k < 8, (fun _ : DWord => (7 : Byte)) ((1 : DWord) + BitVec.ofNat 64 k) =
      (fun _ : DWord => (7 : Byte)) ((3 : DWord) + BitVec.ofNat 64 k) := ⟨by decide, fun _ _ => rfl⟩

theorem witness_ZeroLengthReturnsTheInitialSum : (st { zero with addr := 0xFFFFFFFFFFFFFFFF } []).unit.len = 0 := rfl

/-- The range that ends at 2^64. -/
theorem witness_CsumFortyWritesTheKernelValue :
    ((0x431 : Word).toNat % 256 = 0x31 ∧ 4 ≤ (0x431 : Word).toNat / 256) ∧
    (st { zero with addr := 0xFFFFFFFFFFFFFFD8 } []).Ordinary 0xFFFFFFFFFFFFFFD8 40 ∧
    (st { zero with addr := 0xFFFFFFFFFFFFFFD8 } []).Accepts 0xFFFFFFFFFFFFFFD8 40 :=
  ⟨by decide, st_ordinary _ _ _ (by decide) (by decide), st_accepts _ _ _⟩

/-- A failure (RANGE). -/
theorem witness_CsumFortyAgreesWithCsum :
    ∃ t, exec (.csum40 .seq) (st { zero with addr := 0xFFFFFFFFFFFFFFD9 } []) = .next t :=
  ⟨_, (exec_memoryCommand (i := .csum40 .seq) trivial).trans (onRange_wraps (n := 40) (by decide))⟩

theorem witness_AlignmentSwapsTheInitialSum :
    (0x3101 : DWord).toNat % 2 = 1 ∧ (0x3000 : DWord).toNat % 2 = 0 ∧
    (∀ k < 2, (fun _ : DWord => (7 : Byte)) ((0x3101 : DWord) + BitVec.ofNat 64 k) =
      (fun _ : DWord => (7 : Byte)) ((0x3000 : DWord) + BitVec.ofNat 64 k)) ∧
    (257 : Word).toNat % 257 = 0 := ⟨by decide, by decide, fun _ _ => rfl, by decide⟩

/-- One pair of lengths for each clause. -/
theorem witness_ChainingFollowsTheSplitPoint :
    (0x1000 : DWord).toNat % 2 = 0 ∧ 24 % 4 = 0 ∧ 22 % 4 = 2 ∧ (21 % 2 = 1 ∧ 1 ≤ 19) ∧ (21 % 2 = 1 ∧ 0 = 0) := by
  decide

end Sys2Proof.Tests
end

section
/-! The platform's fixed parameters along one step (00_scope.md R7, log 3): each way a step can end, as
`Laws/Step.lean` lists them, leaves them unchanged. -/

namespace Sys2Proof.Machine

@[simp] theorem afterMove_platform (s : State) : s.afterMove.platform = s.platform := rfl

theorem WriteEnd.platform_eq {v : Word} {s t : State} (h : WriteEnd v s t) : t.platform = s.platform := by
  cases h <;> rfl

/-- Stores are the one case that is no single update: an induction over them, by `stores_keep`. -/
theorem stores_platform (cells : List (DWord × Byte)) (s : State) :
    (cells.foldl (fun t c => storeReachesMemory c.1 c.2 t) s).platform = s.platform :=
  stores_keep (P := fun t => t.platform = s.platform) (fun _ _ _ h => h) cells rfl

theorem EventEnd.platform_eq {e : Event} {s t : State} (h : EventEnd e s t) : t.platform = s.platform := by
  cases h with
  | write v h => exact h.platform_eq
  | read words => rfl
  | reset he => exact resetUnit_platform s
  | waiting cells => rfl
  | port p hp => exact changePort_platform p s
  | reach cells waiting => exact stores_platform cells _

theorem StepEnd.platform_eq {s t : State} (h : StepEnd s t) : t.platform = s.platform := by
  cases h with
  | idle hb hp => exact afterMove_platform s
  | undecoded hb w hp e hd => exact fail_platform e none s.afterMove
  | command hb w hp i hd ht => exact (exec_end ht).kept.platform
  | event e he hne ht => exact ht.platform_eq

/-- Settles O22: every way a step can end keeps the platform's parameters. -/
theorem platformNeverChanges : Obligations.PlatformNeverChanges :=
  fun _ _ h => (step_end h).platform_eq

end Sys2Proof.Machine
end

section
/-! What the word of a decoded command says of the command (30_encoding.md R80, R83, R84): its fields are the command's,
and so is the number of bytes it reads. -/

namespace Sys2Proof

theorem plainCommand_fields {opc : BitVec 8} {i : Instr} (h : plainCommand opc = some i) :
    opcodeOf i = opc ∧ immOf i = 0 := by
  unfold plainCommand at h
  split_ifs at h with h1 h2 h3 h4 h5 h6 h7 h8 h9 <;> cases h
  · exact ⟨h1.symm, rfl⟩
  · exact ⟨h2.symm, rfl⟩
  · exact ⟨h3.symm, rfl⟩
  · exact ⟨h4.symm, rfl⟩
  · exact ⟨h5.symm, rfl⟩
  · exact ⟨h6.symm, rfl⟩
  · exact ⟨h7.symm, rfl⟩
  · exact ⟨h8.symm, rfl⟩
  · exact ⟨h9.symm, rfl⟩

/-- A hint whose upper two bits are 0 is the IMM field of the strategy it names (R86). -/
theorem immOf_csum40_ofBits (imm : BitVec 4) (h : imm.extractLsb' 2 2 = 0) :
    immOf (.csum40 (strategyOfBits (imm.extractLsb' 0 2))) = imm := by
  revert imm
  decide

/-- Each branch of `decode` that succeeds has fixed all three fields of the word. -/
theorem decode_ok_fields {w : Word} {i : Instr} (h : decode w = .ok i) :
    opcField w = opcodeOf i ∧ immField w = immOf i ∧ rsvField w = 0 := by
  unfold decode at h
  split at h
  · cases h
  split at h
  · cases h
  next hr =>
  have hr := not_not.mp hr
  split at h
  · next ho =>
    split at h
    · cases h
    · cases h
      exact ⟨ho, rfl, hr⟩
  split at h
  · next ho =>
    split at h
    · cases h
    · next hh =>
      cases h
      exact ⟨ho, (immOf_csum40_ofBits _ (not_not.mp hh)).symm, hr⟩
  split at h
  · cases h
  next him =>
  split at h
  · next j hj =>
    cases h
    obtain ⟨hop, hz⟩ := plainCommand_fields hj
    exact ⟨hop.symm, (not_not.mp him).trans hz.symm, hr⟩
  · cases h

theorem opcodeOf_eq_srst {i : Instr} (h : opcodeOf i = 0xFF) : i = .srst := by
  cases i with
  | srst => rfl
  | _ => simp [opcodeOf] at h

namespace Machine

/-- The word of a command reads as many bytes as the command (20_memory.md R67). -/
theorem wordByteCount_of_decode {w : Word} {i : Instr} (h : decode w = .ok i) (u : CsumUnit) :
    wordByteCount w u = byteCount i u := by
  obtain ⟨ho, hi, -⟩ := decode_ok_fields h
  have hop : opcNumber w = (opcodeOf i).toNat := by rw [← ho, opcField_toNat]; rfl
  have him : immNumber w = (immOf i).toNat := by rw [← hi, immField_toNat]; rfl
  unfold wordByteCount
  rw [hop, him]
  cases i <;> rfl

end Machine

end Sys2Proof
end

section
/-! The invariant of the machine (10_state.md R46): the block's own part first, one lemma for each update of its
registers, then the memory and the read window, then every way a step can end. -/

namespace Sys2Proof.Machine

/-! ### The block -/

theorem CsumUnit.reset_inv : CsumUnit.reset.Inv where
  busyIsPending := rfl
  notDoneAndError := by decide
  noErrorNoCode _ := rfl
  errorHasCode := by decide
  runningNotDone := by decide
  errorRunsOnlySrst := nofun

/-- The invariant speaks of the status registers and PENDING alone. -/
theorem CsumUnit.Inv.of_status {u u' : CsumUnit} (h : u.Inv) (busy : u'.busy = u.busy) (done : u'.done = u.done)
    (errv : u'.errv = u.errv) (ecode : u'.ecode = u.ecode) (pending : u'.pending = u.pending) : u'.Inv where
  busyIsPending := by rw [busy, pending]; exact h.busyIsPending
  notDoneAndError := by rw [done, errv]; exact h.notDoneAndError
  noErrorNoCode := by rw [errv, ecode]; exact h.noErrorNoCode
  errorHasCode := by rw [errv, ecode]; exact h.errorHasCode
  runningNotDone := by rw [busy, done]; exact h.runningNotDone
  errorRunsOnlySrst := by rw [pending, errv]; exact h.errorRunsOnlySrst

theorem CsumUnit.Inv.pending_done {u : CsumUnit} (h : u.Inv) {w : Word} (hp : u.pending = some w) :
    u.done = false :=
  h.runningNotDone (by rw [h.busyIsPending, hp]; rfl)

theorem CsumUnit.Inv.pending_of_not_busy {u : CsumUnit} (h : u.Inv) (hb : u.busy = false) : u.pending = none := by
  rwa [h.busyIsPending, Option.isSome_eq_false_iff, Option.isNone_iff_eq_none] at hb

/-- A running command other than SRST was accepted without an error (44_control.md R181). -/
theorem CsumUnit.Inv.no_error_of_decode {u : CsumUnit} (h : u.Inv) {w : Word} (hp : u.pending = some w) {i : Instr}
    (hd : decode w = .ok i) (hi : i ≠ .srst) : u.errv = false := by
  by_contra he
  have hw : w.toNat % 256 = 0xFF := h.errorRunsOnlySrst w hp (Bool.eq_true_of_not_eq_false he)
  have ho : opcField w = 0xFF := BitVec.eq_of_toNat_eq ((opcField_toNat w).trans hw)
  exact hi (opcodeOf_eq_srst ((decode_ok_fields hd).1.symm.trans ho))

/-- W1C can only clear DONE and ERRV, and clears ECODE with ERRV (R27). -/
theorem CsumUnit.Inv.writeStatus {u : CsumUnit} (h : u.Inv) (v : Word) : (u.writeStatus v).Inv where
  busyIsPending := h.busyIsPending
  notDoneAndError := by
    simp only [writeStatus_done, writeStatus_errv, Bool.and_eq_true]
    exact fun hde => h.notDoneAndError ⟨hde.1.1, hde.2.1⟩
  noErrorNoCode he := by
    simp only [writeStatus_errv, writeStatus_ecode] at he ⊢
    split
    · rfl
    · next hv =>
      rw [Bool.eq_false_iff.mpr hv, Bool.not_false, Bool.and_true] at he
      exact h.noErrorNoCode he
  errorHasCode he := by
    simp only [writeStatus_errv, Bool.and_eq_true, Bool.not_eq_true'] at he
    rw [writeStatus_ecode, he.2]
    exact h.errorHasCode he.1
  runningNotDone hb := by rw [writeStatus_done, h.runningNotDone hb, Bool.false_and]
  errorRunsOnlySrst w hp he := by
    simp only [writeStatus_errv, Bool.and_eq_true] at he
    exact h.errorRunsOnlySrst w hp he.1

/-! ### The machine -/

/-- The state with its registers replaced, PENDING kept. -/
theorem State.Inv.with_unit {s : State} (h : s.Inv) {u : CsumUnit} (hu : u.Inv)
    (hp : u.pending = s.unit.pending) : State.Inv { s with unit := u } :=
  ⟨hu, h.memory, h.windowMemory, fun hn => h.windowOnlyWhileRunning (hp ▸ hn)⟩

/-- The read window closed, memory as it was. -/
theorem State.Inv.of_closed {s t : State} (h : s.Inv) (hu : t.unit.Inv) (port : t.port = s.port)
    (window : t.window = []) : t.Inv :=
  ⟨hu, port ▸ h.memory, by simp [window], fun _ => window⟩

/-- The invariant does not speak of what the host and the schedule hold. -/
theorem State.Inv.of_same {s t : State} (h : s.Inv) (unit : t.unit = s.unit) (port : t.port = s.port)
    (window : t.window = s.window) : t.Inv :=
  ⟨unit ▸ h.block, port ▸ h.memory, window ▸ h.windowMemory, by
    rw [unit, window]
    exact h.windowOnlyWhileRunning⟩

theorem State.Inv.afterMove {s : State} (h : s.Inv) : s.afterMove.Inv := h.of_same rfl rfl rfl

theorem State.Inv.resetUnit {s : State} (h : s.Inv) : (resetUnit s).Inv :=
  h.of_closed CsumUnit.reset_inv rfl rfl

/-- A change of the port puts the present image into the window of a running command (20_memory.md R74). -/
theorem State.Inv.changePort {s : State} (h : s.Inv) {p : PortImage} (hp : Memory.wf p.mem = true) :
    (changePort p s).Inv where
  block := h.block
  memory := hp
  windowMemory q hq := by
    rw [changePort_window] at hq
    split at hq
    · rcases List.mem_cons.mp hq with rfl | hq
      · exact h.memory
      · exact h.windowMemory q hq
    · exact h.windowMemory q hq
  windowOnlyWhileRunning hn := by
    rw [changePort_unit] at hn
    rw [changePort_window, hn]
    exact h.windowOnlyWhileRunning hn

theorem State.Inv.storeReachesMemory {s : State} (h : s.Inv) (a : DWord) (b : Byte) :
    (storeReachesMemory a b s).Inv :=
  h.changePort (Memory.wf_write a b h.memory)

/-! ### The ends of a command -/

/-- A failure keeps DONE, which is 0 while a command runs (44_control.md R185, log 18). -/
theorem fail_unit_inv {s : State} {w : Word} (h : s.unit.Inv) (hp : s.unit.pending = some w) (e : ErrCode)
    (info : Option DWord) : (fail e info s).unit.Inv where
  busyIsPending := rfl
  notDoneAndError := by simp [h.pending_done hp]
  noErrorNoCode := by simp
  errorHasCode _ := errNumber_range e
  runningNotDone := by simp
  errorRunsOnlySrst := by simp

/-- A commit sets DONE, so it must come without an error (44_control.md R184). -/
theorem commit_unit_inv {s s' : State} {u : CsumUnit} (h : s.unit.Inv) (hu : SameControl s.unit u)
    (he : s.unit.errv = false) : (commit u s').unit.Inv where
  busyIsPending := rfl
  notDoneAndError := by simp [hu.errv, he]
  noErrorNoCode _ := hu.ecode.trans (h.noErrorNoCode he)
  errorHasCode := by simp [hu.errv, he]
  runningNotDone := by simp
  errorRunsOnlySrst := by simp

theorem CommandEnd.inv {i : Instr} {s t : State} {w : Word} (h : CommandEnd i s t) (hs : s.Inv)
    (hp : s.unit.pending = some w) (hd : decode w = .ok i) : t.Inv := by
  have hu : t.unit.Inv := by
    cases h with
    | committed u s' hi _ hu => exact commit_unit_inv hs.block hu (hs.block.no_error_of_decode hp hd hi)
    | failed e info s' hi hs' => rcases hs' with rfl | rfl <;> exact fail_unit_inv hs.block hp e info
    | reset hi => exact CsumUnit.reset_inv
  exact hs.of_closed hu h.port h.idle.2.2

/-! ### The events -/

/-- With ERRV = 1 only OPC 0xFF is accepted, and only by an idle block (44_control.md R181). -/
theorem acceptCommand_unit_inv {s : State} {v : Word} (h : s.unit.Inv)
    (he : s.unit.errv = true → opcField v = 0xFF) : (acceptCommand v s).unit.Inv where
  busyIsPending := rfl
  notDoneAndError := by simp
  noErrorNoCode := h.noErrorNoCode
  errorHasCode := h.errorHasCode
  runningNotDone _ := rfl
  errorRunsOnlySrst w hp hv := by
    cases hp
    rw [← opcField_toNat, he hv]
    rfl

theorem WriteEnd.inv {v : Word} {s t : State} (h : WriteEnd v s t) (hs : s.Inv) : t.Inv := by
  cases h with
  | ignored => exact hs
  | overrun => exact hs.with_unit (hs.block.of_status rfl rfl rfl rfl rfl) rfl
  | ctrl => exact hs.with_unit (hs.block.of_status rfl rfl rfl rfl rfl) rfl
  | status => exact hs.with_unit (hs.block.writeStatus v) rfl
  | accepted hb he => exact hs.of_closed (acceptCommand_unit_inv hs.block he) rfl rfl
  | stored r hb =>
    rw [storeOperand_same]
    exact hs.with_unit (hs.block.of_status rfl rfl rfl rfl rfl) rfl

theorem EventEnd.inv {e : Event} {s t : State} (h : EventEnd e s t) (hs : s.Inv) : t.Inv := by
  cases h with
  | write v h => exact h.inv hs
  | read words => exact hs.of_same rfl rfl rfl
  | reset he => exact hs.resetUnit
  | waiting cells => exact hs.of_same rfl rfl rfl
  | port p hp => exact hs.changePort (hp hs.memory)
  | reach cells waiting =>
    exact stores_keep (fun a b _ h => h.storeReachesMemory a b) cells (hs.of_same rfl rfl rfl)

theorem StepEnd.inv {s t : State} (h : StepEnd s t) (hs : s.Inv) : t.Inv := by
  cases h with
  | idle hb hp => exact hs.afterMove
  | undecoded hb w hp e hd => exact hs.of_closed (fail_unit_inv (s := s.afterMove) hs.block hp e none) rfl rfl
  | command hb w hp i hd ht => exact (exec_end ht).inv hs.afterMove hp hd
  | event e he hne ht => exact ht.inv hs.afterMove

/-- Settles O21: every way a step can end keeps the invariant. -/
theorem everyStepKeepsTheInvariant : Obligations.EveryStepKeepsTheInvariant :=
  fun _ _ hs h => (step_end h).inv hs

/-- Settles O20: the reset state has the block at its reset values, no memory listed and no window. -/
theorem resetMeetsTheInvariant : Obligations.ResetMeetsTheInvariant :=
  ⟨CsumUnit.reset_inv, Memory.wf_reset, nofun, fun _ => rfl⟩

end Sys2Proof.Machine
end

section
/-! Host accesses at an offset of the register block (10_state.md R23 to R27, 44_control.md R187, R189): what the
step answers, and the registers as numbers. -/

namespace Sys2Proof.Machine

theorem step_of_hostReads {s : State} {off : Nat} (h : s.HostReads off) (hlt : off < 64) (h4 : off % 4 = 0) :
    step s = .next { s.afterMove with reads := s.unit.readReg (regAtOffset off) :: s.reads } := by
  obtain ⟨addr, he, ha⟩ := h
  have hreg : accessedReg s.afterMove.platform addr .bits32 = .ok (regAtOffset off) := accessedReg_at ha hlt h4
  rw [step_event_head he]
  simp only [takeEvent, hostRead, hreg]
  rfl

theorem step_of_hostWrites {s : State} {off : Nat} {v : Word} (h : s.HostWrites off v) (hlt : off < 64)
    (h4 : off % 4 = 0) : step s = .next (writeReg (regAtOffset off) v s.afterMove) := by
  obtain ⟨addr, he, ha⟩ := h
  have hreg : accessedReg s.afterMove.platform addr .bits32 = .ok (regAtOffset off) := accessedReg_at ha hlt h4
  rw [step_event_head he]
  simp only [takeEvent, hostWrite, hreg]

/-- A register write that replaces the block's registers and nothing else. -/
theorem writeGives_of_writeReg {s : State} {off : Nat} {v : Word} {u : CsumUnit} (hlt : off < 64) (h4 : off % 4 = 0)
    (hw : writeReg (regAtOffset off) v s.afterMove = { s.afterMove with unit := u }) : WriteGives s off v u :=
  fun h => ⟨_, step_of_hostWrites h hlt h4, by rw [hw], by rw [hw]; rfl,
    by rw [hw]; exact Kept.of_same rfl rfl rfl rfl rfl⟩

theorem getLsbD_eq_decide (v : Word) (k : Nat) : v.getLsbD k = decide (v.toNat / 2 ^ k % 2 = 1) :=
  Nat.testBit_eq_decide_div_mod_eq

theorem shownEcode_toNat (u : CsumUnit) : u.shownEcode.toNat = if u.errv then u.ecode.toNat else 0 := by
  unfold CsumUnit.shownEcode
  split <;> rfl

theorem statusWord_toNat (u : CsumUnit) : u.statusWord.toNat = statusNumber u := by
  have he := u.shownEcode.isLt
  have h1 := Bool.toNat_le u.busy
  have h2 := Bool.toNat_le u.done
  have h3 := Bool.toNat_le u.errv
  have h4 := Bool.toNat_le u.ovr
  have h5 := Bool.toNat_le u.cf
  rw [CsumUnit.statusWord, BitVec.toNat_ofNat, statusNumber, ← shownEcode_toNat]
  omega

/-- CTRL reads as IE and zeros (R25). -/
theorem readReg_ctrl_toNat (u : CsumUnit) : (u.readReg .ctrl).toNat = u.ie.toNat := by
  cases h : u.ie <;> simp [CsumUnit.readReg, h]

/-- The 16 numbers of R24's table are what `readReg` returns at the 16 offsets. -/
theorem registerNumbers_eq (u : CsumUnit) :
    registerNumbers u = (List.range 16).map fun k => (4 * k, (u.readReg (regAtOffset (4 * k))).toNat) := by
  have hie := readReg_ctrl_toNat u
  simp only [CsumUnit.readReg] at hie
  simp [registerNumbers, List.range_succ, regAtOffset, regMap, CsumUnit.readReg, idValue, hie, statusWord_toNat,
    loHalf_toNat, hiHalf_toNat]

/-- Settles O9: the step answers the register's word, and that word is the number of the register map. -/
theorem hostReadsReturnTheRegisters : Obligations.HostReadsReturnTheRegisters := by
  intro s off value hm hr
  rw [registerNumbers_eq] at hm
  obtain ⟨k, hk, hkv⟩ := List.mem_map.mp hm
  cases hkv
  have hk := List.mem_range.mp hk
  exact ⟨_, _, step_of_hostReads hr (by omega) (by omega), rfl, rfl, rfl, rfl, rfl, rfl, rfl, rfl⟩

theorem and_not_decide (b : Bool) (p : Prop) [Decidable p] : (b && !decide p) = if p then false else b := by
  by_cases h : p <;> simp [h]

/-- The three clearing bits of R27 as numbers. -/
theorem writeStatus_eq (u : CsumUnit) (v : Word) :
    u.writeStatus v = { u with
      done := if v.toNat / 2 % 2 = 1 then false else u.done
      errv := if v.toNat / 4 % 2 = 1 then false else u.errv
      ecode := if v.toNat / 4 % 2 = 1 then 0 else u.ecode
      ovr := if v.toNat / 8 % 2 = 1 then false else u.ovr } := by
  simp only [CsumUnit.writeStatus, CsumUnit.ackDone, CsumUnit.ackError, CsumUnit.ackOverrun, getLsbD_eq_decide,
    and_not_decide, decide_eq_true_eq, Nat.reducePow]

theorem writeCtrl_eq (u : CsumUnit) (v : Word) :
    u.writeCtrl v = { u with ie := decide (v.toNat % 2 = 1) } := by
  rw [CsumUnit.writeCtrl, getLsbD_eq_decide, pow_zero, Nat.div_one]

/-- Settles O16: the register at 0x08 is STATUS, and `writeStatus` clears what R27 names. -/
theorem statusWriteClearsWhatItNames : Obligations.StatusWriteClearsWhatItNames := by
  intro s v
  refine writeGives_of_writeReg (by decide) (by decide) ?_
  rw [← writeStatus_eq]
  rfl

/-- Settles O15: the register at 0x04 is CTRL, of which a write keeps bit 0 alone and a read answers it. -/
theorem ctrlKeepsBitZero : Obligations.CtrlKeepsBitZero := by
  intro s v
  constructor
  · refine writeGives_of_writeReg (by decide) (by decide) ?_
    rw [← writeCtrl_eq]
    rfl
  · exact fun h => ⟨_, _, step_of_hostReads h (by decide) (by decide), rfl, readReg_ctrl_toNat s.unit⟩

/-- Settles O19: reset, SRST and the hardware reset all leave `CsumUnit.reset`. -/
theorem resetValues : Obligations.ResetValues :=
  ⟨rfl, fun s => ⟨resetUnit s, rfl, rfl⟩, fun s h => ⟨resetUnit s.afterMove, step_event_head h, rfl⟩, fun _ => rfl⟩

end Sys2Proof.Machine
end

section
/-! Who writes CF (10_state.md R31) and ERRADDR (R37): of all the ways a step can end, the ones that change them. -/

namespace Sys2Proof.Machine

/-! ### The events -/

/-- No register write reaches CF or ERRADDR. -/
theorem WriteEnd.cf_errAddr_eq {v : Word} {s t : State} (h : WriteEnd v s t) :
    t.unit.cf = s.unit.cf ∧ t.unit.errAddr = s.unit.errAddr := by
  cases h with
  | stored r hb =>
    rw [storeOperand_same]
    exact ⟨rfl, rfl⟩
  | ignored => exact ⟨rfl, rfl⟩
  | overrun => exact ⟨rfl, rfl⟩
  | ctrl => exact ⟨rfl, rfl⟩
  | status => exact ⟨rfl, rfl⟩
  | accepted hb he => exact ⟨rfl, rfl⟩

theorem stores_unit (cells : List (DWord × Byte)) (s : State) :
    (cells.foldl (fun t c => storeReachesMemory c.1 c.2 t) s).unit = s.unit :=
  stores_keep (P := fun t => t.unit = s.unit) (fun _ _ _ h => h) cells rfl

/-- Of the events, only the hardware reset and register writes reach the block's registers. -/
theorem EventEnd.unit_cases {e : Event} {s t : State} (h : EventEnd e s t) :
    (∃ v t', WriteEnd v s t' ∧ t.unit = t'.unit) ∨ (e = .hardwareReset ∧ t.unit = CsumUnit.reset) := by
  have same (hu : t.unit = s.unit) : ∃ v t', WriteEnd v s t' ∧ t.unit = t'.unit := ⟨0, s, .ignored, hu⟩
  cases h with
  | write v h => exact .inl ⟨v, t, h, rfl⟩
  | read words => exact .inl (same rfl)
  | reset he => exact .inr ⟨he, rfl⟩
  | waiting cells => exact .inl (same rfl)
  | port p hp => exact .inl (same rfl)
  | reach cells waiting => exact .inl (same (stores_unit cells _))

/-! ### The commands -/

@[simp] theorem memoryResult_cf (i : Instr) (rd : DWord → Byte) (u : CsumUnit) :
    (memoryResult i rd u).cf = u.cf := by
  cases i <;> rfl

@[simp] theorem memoryResult_errAddr (i : Instr) (rd : DWord → Byte) (u : CsumUnit) :
    (memoryResult i rd u).errAddr = u.errAddr := by
  cases i <;> rfl

/-- The commands that write CF (R31). -/
theorem exec_cf {i : Instr} {s t : State} (h : exec i s = .next t) :
    t.unit.cf = s.unit.cf ∨ i = .init ∨ i = .add ∨ i = .adc ∨ i = .adc0 ∨ i = .srst := by
  have ho := exec_outcome i s
  rw [h] at ho
  cases ho with
  | registers u hm hn hi hcf hu =>
    rw [commit_unit]
    tauto
  | badCount n hi hn => exact .inl rfl
  | badLength hi hl => exact .inl rfl
  | reset hi => exact .inr (.inr (.inr (.inr (.inr hi))))
  | range hm ho =>
    cases ho with
    | wrapped => exact .inl rfl
    | rejected => exact .inl rfl
    | done => exact .inl (memoryResult_cf i _ _)

/-- `t` is the end of a failure that recorded an address: RANGE with ADDR, or BUS with an address of the `n` bytes
from ADDR on (60_exceptions.md R201, R203). -/
def AddressRecorded (n : Nat) (s t : State) : Prop :=
  t.unit.errv = true ∧
    ((t.unit.ecode = 5 ∧ t.unit.errAddr = s.unit.addr) ∨
      (t.unit.ecode = 6 ∧ ∃ k < n, t.unit.errAddr.toNat = s.unit.addr.toNat + k))

/-- A command over a range records an address exactly where RANGE or BUS ends it. -/
theorem RangeOutcome.errAddr {n : Nat} {run : (DWord → Byte) → CsumUnit → CsumUnit} {s t : State}
    (h : RangeOutcome n run s (.next t)) (hrun : ∀ rd u, (run rd u).errAddr = u.errAddr) :
    t.unit.errAddr = s.unit.errAddr ∨ AddressRecorded n s t := by
  cases h with
  | wrapped h => exact .inr ⟨rfl, .inl ⟨rfl, rfl⟩⟩
  | rejected h k hk hr hb =>
    refine .inr ⟨rfl, .inr ⟨rfl, k, hk, ?_⟩⟩
    have hspace := h.inSpace
    simp only [fail_unit, Option.getD_some, hb, BitVec.toNat_ofNat]
    omega
  | done h ha => exact .inl (hrun _ _)

theorem exec_errAddr {i : Instr} {s t : State} (h : exec i s = .next t) :
    t.unit.errAddr = s.unit.errAddr ∨ AddressRecorded (byteCount i s.unit) s t ∨ t.unit = CsumUnit.reset := by
  have ho := exec_outcome i s
  rw [h] at ho
  cases ho with
  | registers u hm hn hi hcf hu => exact .inl hu.errAddr
  | badCount n hi hn => exact .inl rfl
  | badLength hi hl => exact .inl rfl
  | reset hi => exact .inr (.inr rfl)
  | range hm ho => exact (ho.errAddr (memoryResult_errAddr i)).imp_right .inl

/-- Settles O17: of the ends of a step, only a command that writes CF and the hardware reset change it. -/
theorem carryFlagHasFiveWritersAndReset : Obligations.CarryFlagHasFiveWritersAndReset := by
  intro s t h hne
  cases step_end h with
  | idle hb hp => exact absurd rfl hne
  | undecoded hb w hp e hd => exact absurd rfl hne
  | command hb w hp i hd ht =>
    have hi := (exec_cf ht).resolve_left hne
    refine .inl ⟨hb, w, hp, ?_⟩
    rw [hd]
    simpa using hi
  | event e he hn ht =>
    rcases ht.unit_cases with ⟨v, t', hw, hu⟩ | ⟨rfl, -⟩
    · exact absurd (hu ▸ hw.cf_errAddr_eq.1) hne
    · exact .inr he

/-- Settles O18: of the ends of a step, only a recorded address and a reset change ERRADDR; the command's byte count
is its word's. -/
theorem erraddrIsWrittenByRangeAndBusAlone : Obligations.ErraddrIsWrittenByRangeAndBusAlone := by
  intro s t h hne
  cases step_end h with
  | idle hb hp => exact absurd rfl hne
  | undecoded hb w hp e hd => exact absurd rfl hne
  | command hb w hp i hd ht =>
    rcases (exec_errAddr ht).resolve_left hne with ⟨herr, hrange | ⟨hcode, k, hk, ha⟩⟩ | hreset
    · exact .inl ⟨hb, herr, .inl hrange⟩
    · exact .inl ⟨hb, herr, .inr ⟨hcode, w, k, hp, (wordByteCount_of_decode hd s.unit).symm ▸ hk, ha⟩⟩
    · exact .inr hreset
  | event e he hn ht =>
    rcases ht.unit_cases with ⟨v, t', hw, hu⟩ | ⟨-, hreset⟩
    · exact absurd (hu ▸ hw.cf_errAddr_eq.2) hne
    · exact .inr hreset

end Sys2Proof.Machine
end

section
/-! Memory as the block sees it (20_memory.md): the block writes none of it (R61), and `MemRead` is the little-endian
sum of its bytes (R62). -/

namespace Sys2Proof.Machine

/-! ### The block writes nothing (R61) -/

/-- An event that is next leaves the block no move, unless it is the block's own turn. -/
theorem State.BlockMoves.eq_blockTurn {s : State} {e : Event} (hb : s.BlockMoves)
    (he : s.events.head? = some e) : e = .blockTurn := by
  rcases hb with h | h
  · simp [h] at he
  · exact Option.some.inj (he.symm.trans h)

/-- However the block's move ends, the port answers as before. -/
theorem StepEnd.port_of_blockMoves {s t : State} (h : StepEnd s t) (hb : s.BlockMoves) : t.port = s.port := by
  cases h with
  | idle hb hp => rfl
  | undecoded hb w hp e hd => exact fail_port e none s.afterMove
  | command hb w hp i hd ht => exact (exec_end ht).port
  | event e he hne ht => exact absurd (hb.eq_blockTurn he) hne

/-- Settles O23: every end of a command and of a move of the block keeps the port. -/
theorem theBlockNeverWritesMemory : Obligations.TheBlockNeverWritesMemory :=
  ⟨fun _ _ _ h => (exec_end h).kept.memory, fun s t hb h a => by rw [(step_end h).port_of_blockMoves hb]⟩

/-! ### MemRead (R62) -/

/-- Up to 8 bytes each stand at their own place: no index of a byte sum is reduced. -/
theorem byteSum_eq_sum (rd : DWord → Byte) (a : DWord) {n : Nat} (hn : n ≤ 8) :
    byteSum rd a n = ∑ k ∈ Finset.range n, (rd (a + BitVec.ofNat 64 k)).toNat * 2 ^ (8 * k) := by
  refine Finset.sum_congr rfl fun k hk => ?_
  rw [Nat.mod_eq_of_lt ((Finset.mem_range.mp hk).trans_le hn)]

/-- Byte k of a byte sum: the bytes before it fill the places below, and the bytes after it are multiples of the next
place. -/
theorem byteSum_byte (rd : DWord → Byte) (a : DWord) {n k : Nat} (hn : n ≤ 8) (hk : k < n) :
    byteSum rd a n / 2 ^ (8 * k) % 256 = (rd (a + BitVec.ofNat 64 k)).toNat := by
  induction n with
  | zero => exact absurd hk (Nat.not_lt_zero k)
  | succ n ih =>
    have hpos : 0 < 2 ^ (8 * k) := by positivity
    rw [byteSum_succ, Nat.mod_eq_of_lt hn]
    rcases Nat.lt_succ_iff_lt_or_eq.mp hk with h | rfl
    · have hpow : 2 ^ (8 * n) = 2 ^ (8 * k) * (256 * 2 ^ (8 * (n - k - 1))) := by
        rw [show (256 : Nat) = 2 ^ 8 from rfl, ← pow_add, ← pow_add]
        congr 1
        omega
      rw [hpow, Nat.mul_left_comm, Nat.add_mul_div_left _ _ hpos, Nat.mul_left_comm, Nat.add_mul_mod_self_left]
      exact ih (by omega) h
    · have hlow := (memRead_toNat rd a k (by omega)).2
      rw [Nat.add_mul_div_right _ _ hpos, Nat.div_eq_of_lt hlow, Nat.zero_add]
      exact Nat.mod_eq_of_lt (rd _).isLt

/-- Settles O24: `MemRead` is the byte sum, whose bytes and bound are known. -/
theorem memReadIsLittleEndian : Obligations.MemReadIsLittleEndian := by
  intro rd a n _ hn
  obtain ⟨heq, hlt⟩ := memRead_toNat rd a n hn
  rw [heq]
  exact ⟨byteSum_eq_sum rd a hn, fun k hk => byteSum_byte rd a hn hk, hlt⟩

end Sys2Proof.Machine
end

section
/-! What a command depends on (20_memory.md R67): with the bytes of its range the same, another memory changes nothing
but itself. -/

namespace Sys2Proof.Machine

/-! ### The command's functions read the range alone -/

theorem memRead_congr {rd rd' : DWord → Byte} {a : DWord} {n : Nat}
    (h : ∀ k < n, rd (a + BitVec.ofNat 64 k) = rd' (a + BitVec.ofNat 64 k)) : memRead rd a n = memRead rd' a n := by
  induction n with
  | zero => rfl
  | succ n ih => rw [memRead, memRead, ih fun k hk => h k (hk.trans n.lt_succ_self), h n n.lt_succ_self]

theorem sumBytes_congr {rd rd' : DWord → Byte} {p : DWord} {n : Nat} (acc : DWord)
    (h : ∀ k < n, rd (p + BitVec.ofNat 64 k) = rd' (p + BitVec.ofNat 64 k)) :
    sumBytes rd p n acc = sumBytes rd' p n acc := by
  apply BitVec.eq_of_toNat_eq
  rw [sumBytes_toNat, sumBytes_toNat, byteSum_congr h]

theorem csumPartial_congr {rd rd' : DWord → Byte} {a : DWord} {n : Nat} (s : Word)
    (h : ∀ k < n, rd (a + BitVec.ofNat 64 k) = rd' (a + BitVec.ofNat 64 k)) :
    csumPartial rd a n s = csumPartial rd' a n s := by
  unfold csumPartial
  split
  · split
    · rfl
    · have hfirst : rd a = rd' a := by simpa using h 0 (by omega)
      have hrest : ∀ k < n - 1, rd (a + 1 + BitVec.ofNat 64 k) = rd' (a + 1 + BitVec.ofNat 64 k) := by
        intro k hk
        rw [show a + 1 + BitVec.ofNat 64 k = a + BitVec.ofNat 64 (1 + k) from ptr_add a 1 k]
        exact h (1 + k) (by omega)
      rw [hfirst, sumBytes_congr _ hrest]
  · rw [sumBytes_congr _ h]

theorem memoryResult_congr (i : Instr) {rd rd' : DWord → Byte} {u : CsumUnit}
    (h : ∀ k < byteCount i u, rd (u.addr + BitVec.ofNat 64 k) = rd' (u.addr + BitVec.ofNat 64 k)) :
    memoryResult i rd u = memoryResult i rd' u := by
  cases i with
  | ldw n => exact congrArg (fun d => { u with data := d }) (memRead_congr h)
  | csum => exact congrArg (fun r => { u with result := r }) (csumPartial_congr u.sumIn h)
  | csum40 hint => exact congrArg (fun r => { u with result := r }) (csumPartial_congr u.sumIn h)
  | init => rfl
  | add => rfl
  | adc => rfl
  | adc0 => rfl
  | fold64 => rfl
  | fold32 => rfl
  | swap16 => rfl
  | srst => rfl

/-! ### A state with another memory -/

/-- The state with its present memory replaced; the earlier images of the read window stay. -/
def State.withMemory (s : State) (mem : Memory) : State := { s with port := { s.port with mem := mem } }

@[simp] theorem withMemory_unit (s : State) (mem : Memory) : (s.withMemory mem).unit = s.unit := rfl

theorem State.Ordinary.withMemory {s : State} {addr : DWord} {n : Nat} (h : s.Ordinary addr n) (mem : Memory) :
    (s.withMemory mem).Ordinary addr n :=
  ⟨h.inSpace, h.noSideEffect, h.answered⟩

/-- A read is answered from the same image, or from the present one in both states. -/
theorem withMemory_imageFor (s : State) (mem : Memory) (a : Nat) :
    (s.withMemory mem).imageFor a = s.imageFor a ∨
      (s.withMemory mem).imageFor a = (s.withMemory mem).port ∧ s.imageFor a = s.port := by
  obtain ⟨unit, port, window, unseen, platform, events, reads, draws⟩ := s
  cases window with
  | nil => exact .inr ⟨rfl, rfl⟩
  | cons p ps =>
    simp only [State.imageFor, State.images, State.withMemory, List.length_cons]
    rcases Config.raceDraw draws a % (ps.length + 1 + 1) with _ | j
    · exact .inr ⟨rfl, rfl⟩
    · rw [List.getD_cons_succ, List.getD_cons_succ]
      rcases lt_or_ge j (p :: ps).length with h | h
      · exact .inl (by rw [List.getD_eq_getElem _ _ h, List.getD_eq_getElem _ _ h])
      · exact .inr ⟨List.getD_eq_default _ _ h, List.getD_eq_default _ _ h⟩

/-- An address that reads the same in both memories is answered the same. -/
theorem withMemory_answer {s : State} {mem : Memory} {a : Nat} (h : Memory.read mem a = Memory.read s.port.mem a) :
    (s.withMemory mem).answer a = s.answer a := by
  unfold State.answer
  rcases withMemory_imageFor s mem a with hi | ⟨hi, hi'⟩
  · rw [hi]
  · rw [hi, hi']
    simp only [PortImage.answer, State.withMemory, h]

theorem withMemory_rejectedIn {s : State} {mem : Memory} {addr : DWord} {n : Nat}
    (h : ∀ k < n, Memory.read mem (addr.toNat + k) = Memory.read s.port.mem (addr.toNat + k)) :
    (s.withMemory mem).rejectedIn addr n = s.rejectedIn addr n := by
  refine List.filter_congr fun a ha => ?_
  obtain ⟨k, hk, rfl⟩ := List.mem_map.mp ha
  rw [withMemory_answer (h k (List.mem_range.mp hk))]

theorem withMemory_memByte {s : State} {mem : Memory} {addr : DWord} {n : Nat} (hn : addr.toNat + n ≤ 2 ^ 64)
    (h : ∀ k < n, Memory.read mem (addr.toNat + k) = Memory.read s.port.mem (addr.toNat + k)) :
    ∀ k < n, (s.withMemory mem).memByte (addr + BitVec.ofNat 64 k) = s.memByte (addr + BitVec.ofNat 64 k) := by
  intro k hk
  simp only [State.memByte, rangeAddr_toNat hn hk, withMemory_answer (h k hk)]

/-! ### The outcome with another memory (R67) -/

/-- A command over a range, whose updates read the range alone, has the same outcome with the other memory. -/
theorem onRange_withMemory {n : Nat} {run : (DWord → Byte) → CsumUnit → CsumUnit} {s t : State} {mem : Memory}
    (hmem : ∀ k < n, Memory.read mem (s.unit.addr.toNat + k) = Memory.read s.port.mem (s.unit.addr.toNat + k))
    (hrun : ∀ rd rd' : DWord → Byte, (∀ k < n, rd (s.unit.addr + BitVec.ofNat 64 k) =
      rd' (s.unit.addr + BitVec.ofNat 64 k)) → run rd s.unit = run rd' s.unit)
    (h : onRange n run s = .next t) : onRange n run (s.withMemory mem) = .next (t.withMemory mem) := by
  have ho := onRange_outcome n run s
  rw [h] at ho
  cases ho with
  | wrapped hw => exact onRange_wraps hw
  | rejected hord k hk hr hb =>
    rw [onRange_rejects (hord.withMemory mem) hk ((withMemory_answer (hmem k hk)).trans hr), withMemory_unit,
      withMemory_rejectedIn hmem]
    rfl
  | done hord ha =>
    have hacc : (s.withMemory mem).Accepts s.unit.addr n := fun k hk => by
      rw [withMemory_answer (hmem k hk)]
      exact ha k hk
    rw [onRange_accepts (hord.withMemory mem) hacc, withMemory_unit,
      hrun _ _ (withMemory_memByte hord.inSpace hmem)]
    rfl

theorem exec_ldw_badCount {n : BitVec 4} (h : n = 0 ∨ 8 < n.toNat) (s : State) :
    exec (.ldw n) s = .next (fail .badCount none s) := if_pos h

/-- Every command's outcome with another memory that has the same bytes in its range. -/
theorem exec_withMemory {i : Instr} {s t : State} {mem : Memory}
    (hmem : ∀ k < byteCount i s.unit,
      Memory.read mem (s.unit.addr.toNat + k) = Memory.read s.port.mem (s.unit.addr.toNat + k))
    (h : exec i s = .next t) : exec i (s.withMemory mem) = .next (t.withMemory mem) := by
  have range (hm : MemoryCommand i s.unit) : exec i (s.withMemory mem) = .next (t.withMemory mem) := by
    rw [exec_memoryCommand hm] at h
    rw [exec_memoryCommand (s := s.withMemory mem) hm]
    exact onRange_withMemory hmem (fun _ _ hrd => memoryResult_congr i hrd) h
  cases i with
  | ldw n =>
    by_cases hn : n = 0 ∨ 8 < n.toNat
    · rw [exec_ldw_badCount hn] at h ⊢
      cases h
      rfl
    · exact range ⟨Nat.one_le_iff_ne_zero.mpr fun h0 => hn (.inl (BitVec.eq_of_toNat_eq h0)),
        Nat.not_lt.mp fun h8 => hn (.inr h8)⟩
  | csum =>
    by_cases hl : 2 ^ 31 ≤ s.unit.len.toNat
    · rw [exec_csum_negative hl] at h
      rw [exec_csum_negative (s := s.withMemory mem) hl]
      cases h
      rfl
    · exact range (Nat.not_le.mp hl)
  | csum40 hint => exact range trivial
  | init => cases h; rfl
  | add => cases h; rfl
  | adc => cases h; rfl
  | adc0 => cases h; rfl
  | fold64 => cases h; rfl
  | fold32 => cases h; rfl
  | swap16 => cases h; rfl
  | srst => cases h; rfl

/-- A rejected byte anywhere in the range ends a memory command with BUS. -/
theorem exec_rejected_failed {i : Instr} {s : State} {k : Nat} (hm : MemoryCommand i s.unit)
    (hord : s.Ordinary s.unit.addr (byteCount i s.unit)) (hk : k < byteCount i s.unit)
    (hr : s.answer (s.unit.addr.toNat + k) = none) : ∃ t a, exec i s = .next t ∧ Failed s t 6 a := by
  rw [exec_memoryCommand hm, onRange_rejects hord hk hr]
  exact ⟨_, _, rfl, fail_countDraw_failed .bus _ s⟩

/-- Settles O25: the outcome follows the bytes of the range, and a rejected one of them ends it. -/
theorem commandsReadExactlyTheirRange : Obligations.CommandsReadExactlyTheirRange :=
  ⟨fun _ _ _ hmem _ h => exec_withMemory hmem h, fun _ _ _ hm hord hk hr => exec_rejected_failed hm hord hk hr⟩

end Sys2Proof.Machine
end

section
/-! Ranges outside ordinary memory (20_memory.md R69, 93_implementation_defined.md P6): one address in common with a
region is enough for the stop. -/

namespace Sys2Proof.Machine

/-- A region that holds an address of the range touches the range. -/
theorem Region.touches_of_mem {r : Region} {a n k : Nat} (hk : k < n) (hlo : r.base ≤ a + k)
    (hhi : a + k < r.base + r.size) : r.touches a n = true := by
  simp only [Region.touches, Bool.and_eq_true, decide_eq_true_eq]
  omega

/-- A region of the present port image counts among those of the read window. -/
theorem rangeTouches_of_mem {s : State} {r : Region} {addr : DWord} {n k : Nat} (hr : r ∈ s.port.regions)
    (hk : k < n) (hlo : r.base ≤ addr.toNat + k) (hhi : addr.toNat + k < r.base + r.size) :
    s.rangeTouches r.kind addr n = true := by
  refine List.any_eq_true.mpr ⟨s.port, List.mem_cons_self, List.any_eq_true.mpr ⟨r, hr, ?_⟩⟩
  rw [Region.touches_of_mem hk hlo hhi, beq_self_eq_true, Bool.and_self]

theorem touchesRegBlock_of_mem {s : State} {addr : DWord} {n k : Nat} (hk : k < n)
    (hlo : s.platform.regBase.toNat ≤ addr.toNat + k) (hhi : addr.toNat + k < s.platform.regBase.toNat + 64) :
    s.touchesRegBlock addr n = true := Region.touches_of_mem hk hlo hhi

theorem onRange_sideEffects {n : Nat} {run : (DWord → Byte) → CsumUnit → CsumUnit} {s : State}
    (hn : s.unit.addr.toNat + n ≤ 2 ^ 64) (hd : s.hasSideEffects s.unit.addr n = true) :
    onRange n run s = .refused .sideEffectRange := by
  simp only [onRange, (not_wraps_iff _ _).mpr hn, hd, Bool.false_eq_true, if_false, if_true]

theorem onRange_silent {n : Nat} {run : (DWord → Byte) → CsumUnit → CsumUnit} {s : State}
    (hn : s.unit.addr.toNat + n ≤ 2 ^ 64) (hd : s.hasSideEffects s.unit.addr n = false)
    (hs : s.rangeTouches .silent s.unit.addr n = true) : onRange n run s = .fault .portNeverAnswers := by
  simp only [onRange, (not_wraps_iff _ _).mpr hn, hd, hs, Bool.false_eq_true, if_false, if_true]

/-- Settles O26: one byte in common makes the range touch the region, and the check of the range stops on it. -/
theorem rangesOutsideOrdinaryMemoryStop : Obligations.RangesOutsideOrdinaryMemoryStop := by
  intro i s hm hn
  rw [exec_memoryCommand hm]
  refine ⟨fun r k hk hr hkind hlo hhi => ?_, fun k hk hlo hhi => ?_, fun r k hk hr hkind hlo hhi hd => ?_⟩
  · have ht := hkind ▸ rangeTouches_of_mem hr hk hlo hhi
    exact onRange_sideEffects hn (by rw [State.hasSideEffects, ht, Bool.true_or])
  · have ht := touchesRegBlock_of_mem hk hlo hhi
    exact onRange_sideEffects hn (by rw [State.hasSideEffects, ht, Bool.or_true])
  · exact onRange_silent hn hd (hkind ▸ rangeTouches_of_mem hr hk hlo hhi)

end Sys2Proof.Machine
end

section
/-! Stores of other agents and of the host (20_memory.md R73, R74, R76): what a command reads in a race, and the one
byte a store changes. -/

namespace Sys2Proof.Machine

/-! ### Races (R74) -/

/-- Every byte the port accepts is one that an image of the read window holds. -/
theorem State.Bytes.of_images {s : State} {rd : DWord → Byte} {addr : DWord} {n : Nat} (h : s.Bytes rd addr n) :
    ∀ k < n, ∃ p ∈ s.images, p.answer (addr.toNat + k) = some (rd (addr + BitVec.ofNat 64 k)) :=
  fun k hk => ⟨_, imageFor_mem s _, h k hk⟩

/-- A memory command that ends without an error has committed its function of the bytes the port answered. -/
theorem exec_committed_bytes {i : Instr} {s t : State} (hm : MemoryCommand i s.unit) (h : exec i s = .next t)
    (herr : t.unit.errv = false) :
    s.Bytes s.memByte s.unit.addr (byteCount i s.unit) ∧ Committed s t (memoryResult i s.memByte s.unit) := by
  have ho := onRange_outcome (byteCount i s.unit) (memoryResult i) s
  rw [← exec_memoryCommand hm, h] at ho
  cases ho with
  | wrapped hw => exact absurd herr (by simp)
  | rejected hord k hk hr hb => exact absurd herr (by simp)
  | done hord ha => exact ⟨memByte_bytes hord.inSpace ha, commit_countDraw_committed _ s⟩

/-- While a command is pending, a change of the port adds the new image to those that may answer. -/
theorem changePort_images {s : State} {w : Word} (h : s.unit.pending = some w) (p : PortImage) :
    (changePort p s).images = p :: s.images := by
  simp [State.images, h]

/-- Settles O27: the bytes are the port's answers, each from an image of the window, and a store adds its image. -/
theorem racingStoresGiveOldOrNewBytes : Obligations.RacingStoresGiveOldOrNewBytes := by
  constructor
  · intro i s t hm _ h herr
    obtain ⟨hbytes, hcommit⟩ := exec_committed_bytes hm h herr
    exact ⟨s.memByte, hbytes.of_images, hcommit⟩
  · intro s a b w hp he
    exact ⟨_, step_event_head he, rfl, changePort_images (s := s.afterMove) hp _⟩

/-! ### The byte a store changes (R73) -/

theorem storeReachesMemory_read_self {s : State} (h : Memory.wf s.port.mem = true) (a : DWord) (b : Byte) :
    Memory.read (storeReachesMemory a b s).port.mem a.toNat = b := Memory.read_write_self a.toNat b h

theorem storeReachesMemory_read_other {a : DWord} {x : Nat} (h : x ≠ a.toNat) (b : Byte) (s : State) :
    Memory.read (storeReachesMemory a b s).port.mem x = Memory.read s.port.mem x :=
  Memory.read_write_other (Ne.symm h) b s.port.mem

theorem hostStore_coherent {s : State} (h : s.platform.coherent = true) (a : DWord) (b : Byte) :
    hostStore a b s = storeReachesMemory a b s := if_pos h

theorem hostStore_not_coherent {s : State} (h : s.platform.coherent = false) (a : DWord) (b : Byte) :
    hostStore a b s = { s with unseen := s.unseen ++ [(a, b)] } := by
  simp [hostStore, h]

/-! ### Waiting stores that reach memory (R76) -/

theorem stores_wf (cells : List (DWord × Byte)) {s : State} (h : Memory.wf s.port.mem = true) :
    Memory.wf (cells.foldl (fun t c => storeReachesMemory c.1 c.2 t) s).port.mem = true :=
  stores_keep (P := fun t => Memory.wf t.port.mem = true) (fun a b _ h => Memory.wf_write a b h) cells h

theorem stores_unseen (cells : List (DWord × Byte)) (s : State) :
    (cells.foldl (fun t c => storeReachesMemory c.1 c.2 t) s).unseen = s.unseen :=
  stores_keep (P := fun t => t.unseen = s.unseen) (fun _ _ _ h => h) cells rfl

theorem storesReach_unit (base n : Nat) (s : State) : (storesReach base n s).unit = s.unit := stores_unit _ _

theorem storesReach_unseen (base n : Nat) (s : State) :
    (storesReach base n s).unseen = s.unseen.filter (fun c => !inSpan base n c.1) := stores_unseen _ _

/-- The newest waiting store, if it is in the span, is the last to reach memory and decides its byte. -/
theorem storesReach_read_newest {s : State} {base n : Nat} {a : DWord} {b : Byte} {earlier : List (DWord × Byte)}
    (hm : Memory.wf s.port.mem = true) (hu : s.unseen = earlier ++ [(a, b)]) (ha : inSpan base n a = true) :
    Memory.read (storesReach base n s).port.mem a.toNat = b := by
  have hlast : s.unseen.filter (fun c => inSpan base n c.1) =
      earlier.filter (fun c => inSpan base n c.1) ++ [(a, b)] := by
    simp [hu, ha]
  rw [storesReach, hlast, List.foldl_append]
  refine storeReachesMemory_read_self (stores_wf _ ?_) a b
  exact hm

/-- Settles O28: the event's store is one write of memory, waits, or is the last of several writes. -/
theorem storesChangeOneByteOfMemory : Obligations.StoresChangeOneByteOfMemory := by
  intro s a b hm
  have reaches (h : step s = .next (storeReachesMemory a b s.afterMove)) :
      ∃ t, step s = .next t ∧ t.unit = s.unit ∧ Memory.read t.port.mem a.toNat = b ∧
        ∀ x, x ≠ a.toNat → Memory.read t.port.mem x = Memory.read s.port.mem x :=
    ⟨_, h, rfl, storeReachesMemory_read_self (s := s.afterMove) hm a b,
      fun x hx => storeReachesMemory_read_other hx b s.afterMove⟩
  refine ⟨?_, fun he hc => ?_, fun base n he hlo hhi ⟨earlier, hu⟩ => ?_⟩
  · rintro (he | ⟨he, hc⟩)
    · exact reaches (step_event_head he)
    · refine reaches ((step_event_head he).trans ?_)
      rw [takeEvent, hostStore_coherent (s := s.afterMove) hc]
  · refine ⟨_, step_event_head he, ?_⟩
    rw [hostStore_not_coherent (s := s.afterMove) hc]
    exact ⟨rfl, rfl, fun x => rfl⟩
  · have ha : inSpan base n a = true := by simp [inSpan, hlo, hhi]
    refine ⟨_, step_event_head he, storesReach_unit base n s.afterMove,
      storesReach_read_newest (s := s.afterMove) hm hu ha, ?_⟩
    simp [storesReach_unseen, ha]

end Sys2Proof.Machine
end

section
/-! Decoding and encoding are inverse (30_encoding.md R83): the word of a command is R83's, decoding it gives the command
back if its count is legal, and a word that decodes is the word of its command. -/

namespace Sys2Proof

open Machine

theorem encode_fields (i : Instr) : Laws.EncodedFields.Statement i := Laws.EncodedFields.fields_of_append _ _

/-- A word is its fields, and the fields of a command's word are those of the command. -/
theorem encode_toNat (i : Instr) : (encode i).toNat = tableWord i := by
  obtain ⟨ho, hi, hr⟩ := encode_fields i
  rw [word_toNat_fields, ho, hi, hr]
  cases i with
  | csum40 hint => cases hint <;> rfl
  | _ => rfl

theorem toNat_eq_tableWord_iff {w : Word} {i : Instr} : w.toNat = tableWord i ↔ encode i = w := by
  rw [← encode_toNat, BitVec.toNat_inj, eq_comm]

/-- Only the count of LDW can make a command's word one that does not decode. -/
theorem decode_encode (i : Instr) : decode (encode i) = if i.wf then .ok i else .error .badCount := by
  cases i with
  | ldw n =>
    revert n
    decide
  | csum40 hint => cases hint <;> rfl
  | _ => rfl

theorem encode_of_decode {w : Word} {i : Instr} (h : decode w = .ok i) : encode i = w := by
  obtain ⟨ho, hi, hr⟩ := decode_ok_fields h
  obtain ⟨eo, ei, er⟩ := encode_fields i
  exact word_ext (eo.trans ho.symm) (ei.trans hi.symm) (er.trans hr.symm)

theorem wellFormed_of_decode {w : Word} {i : Instr} (h : decode w = .ok i) : i.WellFormed := by
  have hd := decode_encode i
  rw [encode_of_decode h, h] at hd
  by_contra hw
  rw [if_neg hw] at hd
  cases hd

theorem decode_ok_iff {w : Word} {i : Instr} : decode w = .ok i ↔ i.WellFormed ∧ encode i = w := by
  constructor
  · exact fun h => ⟨wellFormed_of_decode h, encode_of_decode h⟩
  · rintro ⟨hw, rfl⟩
    exact (decode_encode i).trans (if_pos hw)

theorem decode_ok_iff_tableWord {w : Word} {i : Instr} :
    decode w = .ok i ↔ i.WellFormed ∧ w.toNat = tableWord i := by
  rw [decode_ok_iff, toNat_eq_tableWord_iff]

/-- Settles O2: both directions are `decode_ok_iff`, and the word of a command is R83's by its fields. -/
theorem decodeAndEncodeAreInverse : Obligations.DecodeAndEncodeAreInverse :=
  ⟨fun i hw => ⟨decode_ok_iff.mpr ⟨hw, rfl⟩, encode_toNat i⟩, fun _ _ h => decode_ok_iff.mp h⟩

/-- Settles O1: each word is the table's word of a well-formed command. -/
theorem opcodeTableWordsDecode : Obligations.OpcodeTableWordsDecode := by
  have row {w : Word} {i : Instr} (hw : i.WellFormed) (h : w.toNat = tableWord i) : decode w = .ok i :=
    decode_ok_iff_tableWord.mpr ⟨hw, h⟩
  exact ⟨row rfl rfl, row rfl rfl, row rfl rfl, row rfl rfl, row rfl rfl, row rfl rfl, row rfl rfl, row rfl rfl,
    row rfl rfl, row rfl rfl, row rfl rfl, row rfl rfl, row rfl rfl, row rfl rfl, row rfl rfl⟩

end Sys2Proof
end

section
/-! Words that do not decode (30_encoding.md R84, R85): R84's checks on the fields of a word, said as numbers, and the
failure of a pending word with an error. -/

namespace Sys2Proof

open Machine

/-! ### The checks on the fields and on the numbers of a word -/

theorem opcNumber_eq (w : Word) : opcNumber w = (opcField w).toNat := (opcField_toNat w).symm

theorem immNumber_eq (w : Word) : immNumber w = (immField w).toNat := (immField_toNat w).symm

theorem rsvNumber_eq (w : Word) : rsvNumber w = (rsvField w).toNat := (rsvField_toNat w).symm

theorem opcNumber_eq_iff (w : Word) (opc : BitVec 8) : opcNumber w = opc.toNat ↔ opcField w = opc := by
  rw [opcNumber_eq, BitVec.toNat_inj]

theorem immNumber_eq_iff (w : Word) (imm : BitVec 4) : immNumber w = imm.toNat ↔ immField w = imm := by
  rw [immNumber_eq, BitVec.toNat_inj]

theorem rsvNumber_eq_iff (w : Word) (rsv : BitVec 20) : rsvNumber w = rsv.toNat ↔ rsvField w = rsv := by
  rw [rsvNumber_eq, BitVec.toNat_inj]

theorem mem_opcodeNumbers_iff (w : Word) : opcNumber w ∈ opcodeNumbers ↔ opcField w ∈ opcodes := by
  rw [opcNumber_eq, show opcodeNumbers = opcodes.map BitVec.toNat from rfl]
  exact List.mem_map_of_injective fun _ _ => BitVec.eq_of_toNat_eq

/-- A hint has a reserved bit set, IMM[3] or IMM[2], exactly from 4 on (R82). -/
theorem four_le_iff_highBits (imm : BitVec 4) : 4 ≤ imm.toNat ↔ imm.extractLsb' 2 2 ≠ 0 := by
  revert imm
  decide

theorem reservedBitSet_iff (w : Word) :
    ReservedBitSet w ↔ rsvField w ≠ 0 ∨ (opcField w = 0x31 ∧ (immField w).extractLsb' 2 2 ≠ 0) ∨
      (opcField w ≠ 0x20 ∧ opcField w ≠ 0x31 ∧ immField w ≠ 0) := by
  have hl : opcNumber w = 0x20 ↔ opcField w = 0x20 := opcNumber_eq_iff w 0x20
  have hc : opcNumber w = 0x31 ↔ opcField w = 0x31 := opcNumber_eq_iff w 0x31
  have hi : immNumber w = 0 ↔ immField w = 0 := immNumber_eq_iff w 0
  have hr : rsvNumber w = 0 ↔ rsvField w = 0 := rsvNumber_eq_iff w 0
  rw [← four_le_iff_highBits, ← immNumber_eq]
  simp only [ReservedBitSet, ne_eq, hl, hc, hi, hr]

theorem badCount_iff (w : Word) :
    BadCount w ↔ opcField w = 0x20 ∧ (immField w = 0 ∨ 8 < (immField w).toNat) := by
  rw [← immNumber_eq, ← immNumber_eq_iff, ← opcNumber_eq_iff]
  rfl

theorem assigned_of_badCount {w : Word} (h : BadCount w) : opcNumber w ∈ opcodeNumbers := by
  rw [h.1]
  decide

/-! ### The first failing check -/

/-- `e` is the error of the first of R84's checks that `w` fails. -/
inductive FirstFailingCheck (w : Word) : ErrCode → Prop where
  | illegal (h1 : opcNumber w ∉ opcodeNumbers) : FirstFailingCheck w .illegal
  | reserved (h1 : opcNumber w ∈ opcodeNumbers) (h2 : ReservedBitSet w) : FirstFailingCheck w .reserved
  | badCount (h2 : ¬ReservedBitSet w) (h3 : BadCount w) : FirstFailingCheck w .badCount

/-- The last branch of `decode` is never taken: an assigned opcode is LDW's, CSUM40's or a plain command's. -/
theorem plainCommand_ne_none {opc : BitVec 8} (h : opc ∈ opcodes) (hl : opc ≠ 0x20) (hc : opc ≠ 0x31) :
    plainCommand opc ≠ none := by
  revert opc
  decide

/-- Each branch of `decode` that raises an error does so at the first check that fails. -/
theorem firstFailingCheck_of_decode {w : Word} {e : ErrCode} (h : decode w = .error e) : FirstFailingCheck w e := by
  unfold decode at h
  split at h
  · next ho =>
    cases h
    exact .illegal (mt (mem_opcodeNumbers_iff w).mp ho)
  next ho =>
  have ho := not_not.mp ho
  have reserved hb := FirstFailingCheck.reserved ((mem_opcodeNumbers_iff w).mpr ho) ((reservedBitSet_iff w).mpr hb)
  split at h
  · next hr =>
    cases h
    exact reserved (.inl hr)
  next hr =>
  split at h
  · next hl =>
    split at h
    · next hn =>
      cases h
      refine .badCount (mt (reservedBitSet_iff w).mp ?_) ((badCount_iff w).mpr ⟨hl, hn⟩)
      simp [hl, not_not.mp hr]
    · cases h
  next hl =>
  split at h
  · next hc =>
    split at h
    · next hh =>
      cases h
      exact reserved (.inr (.inl ⟨hc, hh⟩))
    · cases h
  next hc =>
  split at h
  · next hi =>
    cases h
    exact reserved (.inr (.inr ⟨hl, hc, hi⟩))
  split at h
  · cases h
  · next hn => exact absurd hn (plainCommand_ne_none ho hl hc)

theorem FirstFailingCheck.decode_eq {w : Word} {e : ErrCode} (h : FirstFailingCheck w e) : decode w = .error e := by
  cases h with
  | illegal h1 => exact if_pos (mt (mem_opcodeNumbers_iff w).mpr h1)
  | reserved h1 h2 =>
    rw [decode, if_neg (not_not.mpr ((mem_opcodeNumbers_iff w).mp h1))]
    by_cases hr : rsvField w = 0
    · rw [if_neg (not_not.mpr hr)]
      obtain hr' | ⟨hc, hh⟩ | ⟨hl, hc, hi⟩ := (reservedBitSet_iff w).mp h2
      · exact absurd hr hr'
      · rw [if_neg (by rw [hc]; decide), if_pos hc, if_pos hh]
      · rw [if_neg hl, if_neg hc, if_pos hi]
    · rw [if_pos hr]
  | badCount h2 h3 =>
    have hr : rsvField w = 0 := not_not.mp fun hr => h2 ((reservedBitSet_iff w).mpr (.inl hr))
    obtain ⟨hl, hn⟩ := (badCount_iff w).mp h3
    rw [decode, if_neg (not_not.mpr ((mem_opcodeNumbers_iff w).mp (assigned_of_badCount h3))), if_neg (not_not.mpr hr),
      if_pos hl, if_pos hn]

theorem decode_error_iff {w : Word} {e : ErrCode} : decode w = .error e ↔ FirstFailingCheck w e :=
  ⟨firstFailingCheck_of_decode, FirstFailingCheck.decode_eq⟩

theorem decode_illegal_iff {w : Word} : decode w = .error .illegal ↔ opcNumber w ∉ opcodeNumbers :=
  decode_error_iff.trans ⟨fun | .illegal h1 => h1, .illegal⟩

theorem decode_reserved_iff {w : Word} :
    decode w = .error .reserved ↔ opcNumber w ∈ opcodeNumbers ∧ ReservedBitSet w :=
  decode_error_iff.trans ⟨fun | .reserved h1 h2 => ⟨h1, h2⟩, fun ⟨h1, h2⟩ => .reserved h1 h2⟩

theorem decode_badCount_iff {w : Word} : decode w = .error .badCount ↔ ¬ReservedBitSet w ∧ BadCount w :=
  decode_error_iff.trans ⟨fun | .badCount h2 h3 => ⟨h2, h3⟩, fun ⟨h2, h3⟩ => .badCount h2 h3⟩

/-! ### The failing step -/

/-- A pending word that does not decode fails with its error's code and keeps ERRADDR (44_control.md R185). -/
theorem step_decode_error {s : State} {w : Word} {e : ErrCode} (hb : s.BlockMoves) (hp : s.unit.pending = some w)
    (hd : decode w = .error e) :
    ∃ t, step s = .next t ∧ Failed s.afterMove t (errNumber e) s.unit.errAddr :=
  ⟨_, (step_block hb).trans ((blockTurn_pending (s := s.afterMove) hp).trans (execWord_error hd _)),
    fail_failed e none s.afterMove⟩

/-- Settles O3: an error is the one of the first failing check, and the step of a word with one is a failure. -/
theorem decodeReportsTheFirstFailingCheck : Obligations.DecodeReportsTheFirstFailingCheck := by
  refine fun w => ⟨decode_illegal_iff, decode_reserved_iff, decode_badCount_iff, fun i => decode_ok_iff_tableWord,
    fun e h => ?_, fun s e code hb hp hd hcode => ?_⟩
  · cases decode_error_iff.mp h with
    | illegal => exact .inl rfl
    | reserved => exact .inr (.inl rfl)
    | badCount => exact .inr (.inr rfl)
  · have hc : code = errNumber e := by
      simp only [List.mem_cons, Prod.mk.injEq, List.not_mem_nil, or_false] at hcode
      obtain ⟨rfl, rfl⟩ | ⟨rfl, rfl⟩ | ⟨rfl, rfl⟩ := hcode <;> rfl
    exact hc ▸ step_decode_error hb hp hd

/-- Settles O4: no assigned opcode lies in one of the ranges, so each word there fails the first check. -/
theorem unassignedOpcodesFailAsIllegal : Obligations.UnassignedOpcodesFailAsIllegal := by
  unfold Obligations.UnassignedOpcodesFailAsIllegal
  intro unassigned
  refine ⟨by decide +kernel, fun s w hu hb hp => ?_⟩
  have assigned : ∀ n ∈ opcodeNumbers, unassigned n = false := by decide
  have hd : decode w = .error .illegal :=
    decode_illegal_iff.mpr fun ho => Bool.false_ne_true ((assigned _ ho).symm.trans hu)
  exact step_decode_error hb hp hd

end Sys2Proof
end

section
/-! Commands with one word (30_encoding.md R82, R83): the opcode fixes the word, so every other word with it has a
reserved bit set. -/

namespace Sys2Proof

open Machine

theorem opcodeOf_mem (i : Instr) : opcodeOf i ∈ opcodes := by
  cases i <;> simp [opcodeOf, opcodes]

/-- A word with an assigned opcode other than LDW's and CSUM40's, with RSV or IMM not 0, is RESERVED. -/
theorem decode_reserved_of_fields {w : Word} (ho : opcField w ∈ opcodes) (hl : opcField w ≠ 0x20)
    (hc : opcField w ≠ 0x31) (h : ¬(immField w = 0 ∧ rsvField w = 0)) : decode w = .error .reserved := by
  refine decode_reserved_iff.mpr ⟨(mem_opcodeNumbers_iff w).mpr ho, (reservedBitSet_iff w).mpr ?_⟩
  by_cases hr : rsvField w = 0
  · exact .inr (.inr ⟨hl, hc, fun hi => h ⟨hi, hr⟩⟩)
  · exact .inl hr

/-- A command without an immediate has one word. -/
theorem onlyWord_of_encode {i : Instr} {x : Word} (hx : encode i = x) (hw : i.WellFormed) (hi : immOf i = 0)
    (hl : opcodeOf i ≠ 0x20) (hc : opcodeOf i ≠ 0x31) : OnlyWord i x := by
  subst hx
  refine ⟨rfl, decode_ok_iff.mpr ⟨hw, rfl⟩, fun w hmod hne s hb hp => step_decode_error (e := .reserved) hb hp ?_⟩
  obtain ⟨eo, ei, er⟩ := encode_fields i
  have ho : opcField w = opcodeOf i := by
    rw [← eo, ← BitVec.toNat_inj, opcField_toNat, opcField_toNat, hmod]
  refine decode_reserved_of_fields (ho ▸ opcodeOf_mem i) (ho ▸ hl) (ho ▸ hc) ?_
  rintro ⟨hwi, hwr⟩
  exact hne (word_ext (ho.trans eo.symm) (hwi.trans (ei.trans hi).symm) (hwr.trans er.symm))

end Sys2Proof
end

section
/-! The accumulator (40_accumulator.md): ADD, ADC and ADC0 are one operation on the state, so the exact sum, the room
for a pending carry (R103) and the sum modulo 2^64 - 1 (R105) are said once. A closed chain (R107) follows link by
link. -/

namespace Sys2Proof.Machine

/-! ### The shared operation -/

/-- (ACC, CF) <- add_c_64(ACC, w, cin), committed. -/
def State.addToAcc (s : State) (w : DWord) (cin : Bool) : State := commit (s.unit.setAcc (addC s.unit.acc w cin)) s

theorem exec_add (s : State) : exec .add s = .next (s.addToAcc s.unit.data false) := rfl

theorem exec_adc (s : State) : exec .adc s = .next (s.addToAcc s.unit.data s.unit.cf) := rfl

theorem exec_adc0 (s : State) : exec .adc0 s = .next (s.addToAcc 0 s.unit.cf) := rfl

theorem exec_init (s : State) :
    exec .init s = .next (commit (s.unit.setAcc (s.unit.sumIn.setWidth 64, false)) s) := rfl

theorem addToAcc_committed (s : State) (w : DWord) (cin : Bool) :
    Committed s (s.addToAcc w cin)
      { s.unit with acc := (s.addToAcc w cin).unit.acc, cf := (s.addToAcc w cin).unit.cf } :=
  commit_committed _ s

theorem addToAcc_exact (s : State) (w : DWord) (cin : Bool) :
    (s.addToAcc w cin).unit.acc.toNat + 2 ^ 64 * (s.addToAcc w cin).unit.cf.toNat =
      s.unit.acc.toNat + w.toNat + cin.toNat :=
  addC_exact s.unit.acc w cin (by decide)

theorem addToAcc_zero_exact (s : State) (cin : Bool) :
    (s.addToAcc 0 cin).unit.acc.toNat + 2 ^ 64 * (s.addToAcc 0 cin).unit.cf.toNat =
      s.unit.acc.toNat + cin.toNat := by
  simpa using addToAcc_exact s 0 cin

/-! ### The room for a pending carry -/

/-- A pending carry leaves room for itself (R103). -/
theorem room_iff (a : DWord) (c : Bool) : (c = true → a.toNat ≤ 2 ^ 64 - 2) ↔ a.toNat + c.toNat < 2 ^ 64 := by
  have ha := a.isLt
  cases c <;> simp <;> omega

/-- If accumulator and carry-in fit, so do the new accumulator and the new carry. -/
theorem addToAcc_room {s : State} {cin : Bool} (h : s.unit.acc.toNat + cin.toNat < 2 ^ 64) (w : DWord) :
    (s.addToAcc w cin).unit.acc.toNat + (s.addToAcc w cin).unit.cf.toNat < 2 ^ 64 := by
  have he := addToAcc_exact s w cin
  have hw := w.isLt
  have hc := Bool.toNat_le (s.addToAcc w cin).unit.cf
  have ha := (s.addToAcc w cin).unit.acc.isLt
  omega

theorem addToAcc_zero_cf {s : State} {cin : Bool} (h : s.unit.acc.toNat + cin.toNat < 2 ^ 64) :
    (s.addToAcc 0 cin).unit.cf = false :=
  (addC_no_carry s.unit.acc 0 cin (by simpa [exactSum] using h)).2

/-- Adding 0 carries in the one case of R106. -/
theorem addToAcc_zero_cf_iff (s : State) (cin : Bool) :
    (s.addToAcc 0 cin).unit.cf = true ↔ s.unit.acc.toNat = 2 ^ 64 - 1 ∧ cin = true := by
  have he := addToAcc_zero_exact s cin
  have ha := s.unit.acc.isLt
  have ha' := (s.addToAcc 0 cin).unit.acc.isLt
  have hc := Bool.toNat_le cin
  rw [← Bool.toNat_eq_one, ← Bool.toNat_eq_one]
  omega

/-! ### The sum modulo 2^64 - 1 -/

theorem addToAcc_modEq (s : State) (w : DWord) (cin : Bool) :
    (s.addToAcc w cin).unit.acc.toNat + (s.addToAcc w cin).unit.cf.toNat ≡
      s.unit.acc.toNat + cin.toNat + w.toNat [MOD 2 ^ 64 - 1] := by
  rw [Nat.add_right_comm, ← addToAcc_exact s w cin]
  exact (pow64_mul_modEq _).symm.add_left _

/-! ### The commands -/

/-- Settles O34: INIT is one update of (ACC, CF), and SUM_IN fits ACC. -/
theorem initStartsFromTheInitialSum : Obligations.InitStartsFromTheInitialSum :=
  ⟨onlyWord_of_encode rfl rfl rfl (by decide) (by decide), fun s =>
    ⟨_, exec_init s, commit_committed _ s, BitVec.toNat_setWidth_of_le (by decide)⟩⟩

/-- Settles O35: the shared operation with DATA and no carry-in. -/
theorem addAddsDataAndDropsTheCarry : Obligations.AddAddsDataAndDropsTheCarry :=
  ⟨onlyWord_of_encode rfl rfl rfl (by decide) (by decide), fun s =>
    ⟨_, exec_add s, addToAcc_committed .., addToAcc_exact ..⟩⟩

/-- Settles O36: the shared operation with DATA and CF. -/
theorem adcAddsDataAndTheCarry : Obligations.AdcAddsDataAndTheCarry :=
  ⟨onlyWord_of_encode rfl rfl rfl (by decide) (by decide), fun s =>
    ⟨_, exec_adc s, addToAcc_committed .., addToAcc_exact ..⟩⟩

/-- Settles O37: the shared operation with 0 and CF. -/
theorem adcZeroFoldsTheCarryIn : Obligations.AdcZeroFoldsTheCarryIn :=
  ⟨onlyWord_of_encode rfl rfl rfl (by decide) (by decide), fun s =>
    ⟨_, exec_adc0 s, addToAcc_committed .., addToAcc_zero_exact .., addToAcc_zero_cf_iff ..⟩⟩

/-- Settles O38: ADD has no carry-in, so it starts with room; ADC keeps it; ADC0 uses it up. -/
theorem pendingCarryLeavesRoom : Obligations.PendingCarryLeavesRoom := by
  intro s
  refine ⟨⟨_, exec_add s, (room_iff _ _).mpr (addToAcc_room (cin := false) s.unit.acc.isLt _)⟩, fun h => ?_⟩
  have hroom := (room_iff _ _).mp h
  exact ⟨⟨_, exec_adc s, (room_iff _ _).mpr (addToAcc_room hroom _)⟩, ⟨_, exec_adc0 s, addToAcc_zero_cf hroom⟩⟩

/-- Settles O39: each command's word and carry-in in `addToAcc_modEq`. -/
theorem chainSumIsKeptModulo : Obligations.ChainSumIsKeptModulo :=
  fun s => ⟨⟨_, exec_adc s, addToAcc_modEq ..⟩, ⟨_, exec_adc0 s, addToAcc_modEq ..⟩, ⟨_, exec_add s, addToAcc_modEq ..⟩⟩

/-! ### Closed chains -/

@[simp] theorem andThen_next (s : State) (f : State → Host.Outcome State Fault Refusal) :
    andThen (.next s) f = f s := rfl

/-- What a chain leaves unchanged: all but ACC, CF, DATA and the status. -/
structure ChainFrame (s t : State) : Prop where
  kept : Kept s t
  result : t.unit.result = s.unit.result
  sumIn : t.unit.sumIn = s.unit.sumIn
  addr : t.unit.addr = s.unit.addr
  len : t.unit.len = s.unit.len

theorem Kept.refl (s : State) : Kept s s := .of_same rfl rfl rfl rfl rfl

theorem Kept.trans {s t r : State} (h : Kept s t) (h' : Kept t r) : Kept s r where
  memory a := (h'.memory a).trans (h.memory a)
  regions := h'.regions.trans h.regions
  unseen := h'.unseen.trans h.unseen
  platform := h'.platform.trans h.platform
  events := h'.events.trans h.events
  reads := h'.reads.trans h.reads

theorem ChainFrame.refl (s : State) : ChainFrame s s := ⟨.refl s, rfl, rfl, rfl, rfl⟩

theorem ChainFrame.trans {s t r : State} (h : ChainFrame s t) (h' : ChainFrame t r) : ChainFrame s r where
  kept := h.kept.trans h'.kept
  result := h'.result.trans h.result
  sumIn := h'.sumIn.trans h.sumIn
  addr := h'.addr.trans h.addr
  len := h'.len.trans h.len

theorem chainFrame_addToAcc (s : State) (w : DWord) (cin : Bool) : ChainFrame s (s.addToAcc w cin) :=
  ⟨(addToAcc_committed s w cin).rest, rfl, rfl, rfl, rfl⟩

theorem chainFrame_loadData (w : DWord) (s : State) : ChainFrame s (loadData w s) :=
  ⟨.of_same rfl rfl rfl rfl rfl, rfl, rfl, rfl, rfl⟩

/-- ADC over further words keeps what `ChainInv` says of accumulator and carry. -/
theorem adcEach_chain (ws : List DWord) {s : State} {N : Nat} (h : ChainInv (s.unit.acc, s.unit.cf) N) :
    ∃ t, adcEach ws s = .next t ∧ ChainInv (t.unit.acc, t.unit.cf) (N + (ws.map BitVec.toNat).sum) ∧
      ChainFrame s t := by
  induction ws generalizing s N with
  | nil => exact ⟨s, rfl, h, .refl s⟩
  | cons w ws ih =>
    obtain ⟨t, ht, hinv, hframe⟩ := ih (s := (loadData w s).addToAcc w s.unit.cf) (chainInv_add h w)
    refine ⟨t, ht, ?_, (chainFrame_loadData w s).trans ((chainFrame_addToAcc ..).trans hframe)⟩
    rwa [List.map_cons, List.sum_cons, ← Nat.add_assoc]

theorem closedChain_next (w0 : DWord) (ws : List DWord) (s : State) :
    ∃ t, closedChain w0 ws s = .next t ∧ t.unit.cf = false ∧
      t.unit.acc.toNat = ocsum 64 (s.unit.acc.toNat + w0.toNat + (ws.map BitVec.toNat).sum) ∧ ChainFrame s t := by
  have hadd : ChainInv (addC s.unit.acc w0 false) (s.unit.acc.toNat + w0.toNat) :=
    chainInv_add (chainInv_start s.unit.acc) w0
  obtain ⟨t, ht, hinv, hframe⟩ := adcEach_chain ws (s := (loadData w0 s).addToAcc w0 false) hadd
  refine ⟨t.addToAcc 0 t.unit.cf, ?_, addToAcc_zero_cf hinv.room, closeChain_toNat hinv,
    (chainFrame_loadData w0 s).trans ((chainFrame_addToAcc ..).trans (hframe.trans (chainFrame_addToAcc ..)))⟩
  show andThen (adcEach ws ((loadData w0 s).addToAcc w0 false)) (exec .adc0) = _
  rw [ht, andThen_next, exec_adc0]

/-- The one's-complement sum is all ones exactly for the non-zero multiples of all ones (R107). -/
theorem ocsum_eq_ones_iff {B : Nat} (hB : 0 < B) (N : Nat) :
    ocsum B N = 2 ^ B - 1 ↔ 0 < N ∧ N % (2 ^ B - 1) = 0 := by
  have h2 : 2 ≤ 2 ^ B := Nat.le_self_pow hB.ne' 2
  constructor
  · intro h
    have hmod := ocsum_modEq B N
    have hz := ocsum_eq_zero_iff B N
    rw [h] at hmod hz
    exact ⟨by omega, Eq.trans hmod.symm (Nat.mod_self _)⟩
  · rintro ⟨hN, hmod⟩
    exact (eq_ocsum (by omega) ((Nat.mod_self _).trans hmod.symm) (by omega)).symm

/-- Settles O40: the chain itself by `closedChain_next`, which needs nothing of CF since ADD drops the old carry; the
laws of the sum by its characterisation. -/
theorem closedChainIsTheOnesComplementSum : Obligations.ClosedChainIsTheOnesComplementSum := by
  refine ⟨fun s w0 ws _ => ?_, ocsum_add 64, ocsum_eq_zero_iff 64, ocsum_eq_ones_iff (by decide)⟩
  obtain ⟨t, ht, hcf, hacc, hframe⟩ := closedChain_next w0 ws s
  exact ⟨t, ht, hcf, hacc, hframe.kept, hframe.result, hframe.sumIn, hframe.addr, hframe.len⟩

end Sys2Proof.Machine
end

section
/-! The folds and the byte swap (41_fold.md). A fold at width B adds what stands above the low B bits to them: that
keeps the number modulo 2^B - 1 and is 0 only for 0, so its one's-complement sum stays (R121, R124). FOLD64, FOLD32
and SWAP16 are one operation on the state, whose value these functions give. -/

namespace Sys2Proof.Machine

/-! ### Folding a number -/

/-- The two parts of a number at bit B add up to it modulo 2^B - 1. -/
theorem div_add_mod_modEq (B v : Nat) : v / 2 ^ B + v % 2 ^ B ≡ v [MOD 2 ^ B - 1] := by
  have h1 : 2 ^ B ≡ 1 [MOD 2 ^ B - 1] := Nat.modEq_sub Nat.one_le_two_pow
  calc v / 2 ^ B + v % 2 ^ B = 1 * (v / 2 ^ B) + v % 2 ^ B := by rw [Nat.one_mul]
    _ ≡ 2 ^ B * (v / 2 ^ B) + v % 2 ^ B [MOD 2 ^ B - 1] := (h1.symm.mul_right _).add_right _
    _ = v := Nat.div_add_mod v (2 ^ B)

/-- Folding keeps the one's-complement sum. -/
theorem ocsum_div_add_mod (B v : Nat) : ocsum B (v / 2 ^ B + v % 2 ^ B) = ocsum B v := by
  refine ocsum_congr (div_add_mod_modEq B v) ⟨fun h => ?_, fun h => by simp [h]⟩
  obtain ⟨hd, hm⟩ := Nat.add_eq_zero_iff.mp h
  rw [← Nat.div_add_mod v (2 ^ B), hd, hm, Nat.mul_zero]

/-- The four 16-bit fields of a 64-bit value add up to it modulo 0xFFFF. -/
theorem fields_modEq (v : Nat) :
    v ≡ v / 2 ^ 48 + v / 2 ^ 32 % 2 ^ 16 + v / 2 ^ 16 % 2 ^ 16 + v % 2 ^ 16 [MOD 0xFFFF] := by
  have h32 : v / 2 ^ 32 = v / 2 ^ 16 / 2 ^ 16 := by omega
  have h48 : v / 2 ^ 48 = v / 2 ^ 32 / 2 ^ 16 := by omega
  rw [Nat.ModEq, h48, h32]
  omega

/-! ### The folds -/

/-- If the first add carries, its sum is not all ones: the second add has no carry out (R121, R124). -/
theorem endAroundAdd_no_carry {n : Nat} (a b : BitVec n) (hn : 0 < n) :
    (addC (addC a b false).1 0 (addC a b false).2).2 = false := by
  refine (addC_no_carry _ _ _ ?_).2
  have ha := a.isLt
  have hb := b.isLt
  have hs := (addC a b false).1.isLt
  have h1 := addC_exact a b false hn
  simp only [exactSum, Bool.toNat_false, BitVec.ofNat_eq_ofNat, BitVec.toNat_zero] at h1 ⊢
  cases hc : (addC a b false).2 <;> simp only [hc, Bool.toNat_false, Bool.toNat_true] at h1 ⊢ <;> omega

theorem fold64_toNat (v : DWord) : (fold64 v).toNat = ocsum 32 v.toNat := by
  rw [fold64, fold64to32, endAroundAdd_toNat _ _ (by decide), hiHalf_toNat, loHalf_toNat, ocsum_div_add_mod]

theorem fold32to16_toNat (v : Word) : (fold32to16 v).toNat = ocsum 16 v.toNat := by
  have hhi : (v.extractLsb' 16 16).toNat = v.toNat / 2 ^ 16 := by
    have := v.isLt
    rw [BitVec.extractLsb'_toNat, Nat.shiftRight_eq_div_pow]
    omega
  have hlo : (v.extractLsb' 0 16).toNat = v.toNat % 2 ^ 16 := BitVec.extractLsb'_toNat ..
  rw [fold32to16, endAroundAdd_toNat _ _ (by decide), hhi, hlo, ocsum_div_add_mod]

/-- A 16-bit sum at the width of RESULT. -/
theorem fold32to16_zext_toNat (v : Word) : ((fold32to16 v).setWidth 32).toNat = ocsum 16 v.toNat := by
  rw [BitVec.toNat_setWidth_of_le (by decide), fold32to16_toNat]

/-- A value of 16 bits is its own fold. -/
theorem fold32to16_zext (v : Half) : fold32to16 (v.setWidth 32) = v := by
  apply BitVec.eq_of_toNat_eq
  rw [fold32to16_toNat, BitVec.toNat_setWidth_of_le (by decide), ocsum_of_lt v.isLt]

theorem fold32to16_fold64_toNat (v : DWord) : (fold32to16 (fold64 v)).toNat = ocsum 16 v.toNat := by
  rw [fold32to16_toNat, fold64_toNat, ocsum16_ocsum32]

theorem ocsum_toNat_eq_zero_iff (B : Nat) {n : Nat} (v : BitVec n) : ocsum B v.toNat = 0 ↔ v = 0 := by
  rw [ocsum_eq_zero_iff, BitVec.toNat_eq]
  simp

/-- Settles O41: each fold is an end-around add of the two parts of its operand, and the sums nest since 2^32 - 1
divides 2^64 - 1, and 2^16 - 1 divides 2^32 - 1. -/
theorem foldsAreOnesComplementSums : Obligations.FoldsAreOnesComplementSums := by
  refine ⟨fun hi lo => endAroundAdd_no_carry hi lo (by decide), fun v => ?_, fun v N h => ?_, fun v => ?_,
    fun v => ?_⟩
  · exact ⟨fold64_toNat v, ocsum_modEq 32 _, ocsum_toNat_eq_zero_iff 32 v⟩
  · exact (fold64_toNat v).trans (h ▸ ocsum32_ocsum64 N)
  · exact ⟨fold32to16_toNat v, fold32to16_zext _, endAroundAdd_no_carry _ _ (by decide)⟩
  · exact ⟨fold32to16_fold64_toNat v, (ocsum_modEq 16 _).trans (fields_modEq _), ocsum_toNat_eq_zero_iff 16 v⟩

/-! ### The byte swap -/

theorem swap16_toNat (v : Half) : (swap16 v).toNat = v.toNat % 256 * 256 + v.toNat / 256 := by
  have hv := v.isLt
  simp only [swap16, BitVec.toNat_append, BitVec.extractLsb'_toNat, Nat.shiftRight_eq_div_pow]
  rw [← Nat.shiftLeft_add_eq_or_of_lt (by omega), Nat.shiftLeft_eq]
  omega

theorem swap16_swap16 (v : Half) : swap16 (swap16 v) = v := by
  have hv := v.isLt
  apply BitVec.eq_of_toNat_eq
  rw [swap16_toNat, swap16_toNat]
  omega

theorem swap16_modEq (v : Half) : (swap16 v).toNat ≡ 256 * v.toNat [MOD 0xFFFF] := by
  rw [swap16_toNat, Nat.ModEq]
  omega

/-- SWAP16's value: the low two bytes of RESULT exchanged, the others cleared. -/
theorem swap16_low_zext_toNat (v : Word) :
    ((swap16 (v.extractLsb' 0 16)).setWidth 32).toNat = v.toNat % 256 * 256 + v.toNat / 256 % 256 := by
  have hlo : (v.extractLsb' 0 16).toNat = v.toNat % 2 ^ 16 := BitVec.extractLsb'_toNat ..
  rw [BitVec.toNat_setWidth_of_le (by decide), swap16_toNat, hlo]
  omega

/-- Settles O42: the exchange of the bytes as numbers gives the rest. -/
theorem swapExchangesTheBytes : Obligations.SwapExchangesTheBytes :=
  fun v => ⟨swap16_toNat v, swap16_swap16 v, swap16_modEq v, by decide, by decide⟩

/-! ### The commands -/

/-- RESULT <- v, committed. -/
def State.setResult (s : State) (v : Word) : State := commit { s.unit with result := v } s

@[simp] theorem setResult_result (s : State) (v : Word) : (s.setResult v).unit.result = v := rfl
@[simp] theorem setResult_acc (s : State) (v : Word) : (s.setResult v).unit.acc = s.unit.acc := rfl
@[simp] theorem setResult_cf (s : State) (v : Word) : (s.setResult v).unit.cf = s.unit.cf := rfl

theorem setResult_committed (s : State) (v : Word) :
    Committed s (s.setResult v) { s.unit with result := (s.setResult v).unit.result } :=
  commit_committed _ s

theorem exec_fold64 (s : State) : exec .fold64 s = .next (s.setResult (fold64 s.unit.acc)) := rfl

theorem exec_fold32 (s : State) :
    exec .fold32 s = .next (s.setResult ((fold32to16 s.unit.result).setWidth 32)) := rfl

theorem exec_swap16 (s : State) :
    exec .swap16 s = .next (s.setResult ((swap16 (s.unit.result.extractLsb' 0 16)).setWidth 32)) := rfl

/-- Settles O43: RESULT alone is written, with the fold of ACC. -/
theorem foldSixtyFourReducesAcc : Obligations.FoldSixtyFourReducesAcc :=
  ⟨onlyWord_of_encode rfl rfl rfl (by decide) (by decide), fun s =>
    ⟨_, exec_fold64 s, setResult_committed .., fold64_toNat _⟩⟩

/-- Settles O44: RESULT alone is written, with its own fold. -/
theorem foldThirtyTwoReducesResult : Obligations.FoldThirtyTwoReducesResult :=
  ⟨onlyWord_of_encode rfl rfl rfl (by decide) (by decide), fun s =>
    ⟨_, exec_fold32 s, setResult_committed .., fold32to16_zext_toNat _⟩⟩

/-- Settles O45: RESULT alone is written, with its own byte swap. -/
theorem swapSixteenSwapsResult : Obligations.SwapSixteenSwapsResult :=
  ⟨onlyWord_of_encode rfl rfl rfl (by decide) (by decide), fun s =>
    ⟨_, exec_swap16 s, setResult_committed .., swap16_low_zext_toNat _⟩⟩

/-- Settles O46: the three commands in turn; the sum after FOLD32 has two bytes, so SWAP16 clears none of it. -/
theorem foldSequenceFinishesTheSum : Obligations.FoldSequenceFinishesTheSum := by
  intro s
  have hsum : ((fold32to16 (fold64 s.unit.acc)).setWidth 32).toNat = ocsum 16 s.unit.acc.toNat := by
    rw [BitVec.toNat_setWidth_of_le (by decide), fold32to16_fold64_toNat]
  refine ⟨_, _, exec_fold32 (s.setResult (fold64 s.unit.acc)), exec_swap16 _, hsum, ?_, rfl, rfl⟩
  have hlt : ocsum 16 s.unit.acc.toNat < 2 ^ 16 := ocsum_lt (by decide) _
  rw [setResult_result, swap16_low_zext_toNat, setResult_result, setResult_result, hsum]
  omega

end Sys2Proof.Machine
end

section
/-! The loader (42_loader.md). LDW commits `MemRead` of its range, whose bytes are known (R141). The source's two
mechanisms take n adjacent bytes out of an 8-byte word: a byte sum is made of the sums of its consecutive parts, each
in its place, so a shift right drops the parts below and a mask the parts above (R142). -/

namespace Sys2Proof.Machine

/-! ### LDW (R141) -/

/-- Byte k of the loader's value is the byte read at a + k. -/
theorem loadTail_byte (rd : DWord → Byte) (a : DWord) {n k : Nat} (hn : n ≤ 8) (hk : k < n) :
    (loadTail rd a n).extractLsb' (8 * k) 8 = rd (a + BitVec.ofNat 64 k) := by
  apply BitVec.eq_of_toNat_eq
  rw [BitVec.extractLsb'_toNat, Nat.shiftRight_eq_div_pow, loadTail_toNat rd a n hn]
  exact byteSum_byte rd a hn hk

theorem loadTail_lt (rd : DWord → Byte) (a : DWord) {n : Nat} (hn : n ≤ 8) :
    (loadTail rd a n).toNat < 2 ^ (8 * n) := by
  rw [loadTail_toNat rd a n hn]
  exact (memRead_toNat rd a n hn).2

/-- A memory command on an ordinary, accepted range commits its function of the bytes read. -/
theorem exec_memoryCommand_accepts {i : Instr} {s : State} (hm : MemoryCommand i s.unit)
    (hord : s.Ordinary s.unit.addr (byteCount i s.unit)) (ha : s.Accepts s.unit.addr (byteCount i s.unit)) :
    exec i s = .next (commit (memoryResult i s.memByte s.unit) (countDraw s)) := by
  rw [exec_memoryCommand hm, onRange_accepts hord ha]

/-- Settles O47: DATA alone is written, with the loader's value, whose bytes are the port's answers. -/
theorem ldwLoadsItsBytes : Obligations.LdwLoadsItsBytes := by
  intro s n h1 h8 hord ha
  refine ⟨_, exec_memoryCommand_accepts (i := .ldw n) ⟨h1, h8⟩ hord ha, commit_countDraw_committed _ s,
    loadTail_lt s.memByte s.unit.addr h8, fun k hk => ?_⟩
  exact (memByte_bytes hord.inSpace ha k hk).trans
    (congrArg some (loadTail_byte s.memByte s.unit.addr h8 hk).symm)

/-! ### The source's mechanisms (R142) -/

/-- Up to 8 bytes in two parts: the second part stands above the first. -/
theorem byteSum_append (rd : DWord → Byte) (a : DWord) (m r : Nat) (h : m + r ≤ 8) :
    byteSum rd a (m + r) = byteSum rd a m + 2 ^ (8 * m) * byteSum rd (a + BitVec.ofNat 64 m) r := by
  induction r with
  | zero => rfl
  | succ r ih =>
    rw [← Nat.add_assoc, byteSum_succ, ih (by omega), byteSum_succ, ptr_add, Nat.mod_eq_of_lt (by omega : m + r < 8),
      Nat.mod_eq_of_lt (by omega : r < 8)]
    ring

/-- The n bytes from the d-th on, cut out of an 8-byte sum. -/
theorem byteSum_cut (rd : DWord → Byte) (a : DWord) {d n : Nat} (h : d + n ≤ 8) :
    byteSum rd a 8 / 2 ^ (8 * d) % 2 ^ (8 * n) = byteSum rd (a + BitVec.ofNat 64 d) n := by
  obtain ⟨r, hr⟩ := Nat.exists_eq_add_of_le h
  have hparts : byteSum rd a 8 =
      byteSum rd a d + 2 ^ (8 * d) * byteSum rd (a + BitVec.ofNat 64 d) (n + r) := by
    rw [← byteSum_append rd a d (n + r) (by omega), ← Nat.add_assoc, ← hr]
  have hbelow := (memRead_toNat rd a d (by omega)).2
  have hcut := (memRead_toNat rd (a + BitVec.ofNat 64 d) n (by omega)).2
  rw [hparts, Nat.add_mul_div_left _ _ (by positivity), Nat.div_eq_of_lt hbelow, Nat.zero_add,
    byteSum_append rd _ n r (by omega), Nat.add_mul_mod_self_left, Nat.mod_eq_of_lt hcut]

/-- A shift left and back by 64 - k keeps the low k bits. -/
theorem shiftLeft_ushiftRight_toNat (x : DWord) {k : Nat} (hk : k ≤ 64) :
    ((x <<< (64 - k)) >>> (64 - k)).toNat = x.toNat % 2 ^ k := by
  have hpow : 2 ^ 64 = 2 ^ k * 2 ^ (64 - k) := by rw [← pow_add, Nat.add_sub_cancel' hk]
  rw [BitVec.toNat_ushiftRight, BitVec.toNat_shiftLeft, Nat.shiftLeft_eq, Nat.shiftRight_eq_div_pow, hpow,
    Nat.mul_mod_mul_right, Nat.mul_div_cancel _ (by positivity)]

/-- Both mechanisms at once: the n bytes from the d-th on, shifted and masked out of the 8-byte word at b. -/
theorem shifts_of_word_eq_loadTail (rd : DWord → Byte) (b : DWord) {d n : Nat} (h : d + n ≤ 8) :
    ((memRead rd b 8 >>> (8 * d)) <<< (64 - 8 * n)) >>> (64 - 8 * n) = loadTail rd (b + BitVec.ofNat 64 d) n := by
  apply BitVec.eq_of_toNat_eq
  rw [shiftLeft_ushiftRight_toNat _ (by omega), BitVec.toNat_ushiftRight, Nat.shiftRight_eq_div_pow,
    (memRead_toNat rd b 8 le_rfl).1, byteSum_cut rd b h, loadTail_toNat _ _ _ (by omega)]

/-- Settles O48: the bytes stand at the start of the word at a, and d bytes into the aligned word. -/
theorem tailMechanismsGiveTheLoadersValue : Obligations.TailMechanismsGiveTheLoadersValue := by
  intro rd a n _ hn
  constructor
  · simpa using shifts_of_word_eq_loadTail rd a (d := 0) (n := n) (by omega)
  · intro d _ hd
    rw [shifts_of_word_eq_loadTail rd _ hd, BitVec.sub_add_cancel]

end Sys2Proof.Machine
end

section
/-! The checksum kernel (43_kernel.md): its closed forms at an even and at an odd address (R154, R155), and the laws
that follow from them (R156, R157, R159, R164, R165). Modulo 2^64 - 1, and so modulo 2^32 - 1 and 2^16 - 1, a byte's place in
its 8-byte word is its place in the whole buffer; so a byte sum splits anywhere, and the byte swap at the end of the odd
path moves every byte to the place it has on the even path, and the seed out of its place. -/

namespace Sys2Proof.Machine

/-! ### One's-complement sums -/

/-- Two numbers have one one's-complement sum exactly if they are congruent and vanish together. -/
theorem ocsum_eq_iff {B N N' : Nat} :
    ocsum B N = ocsum B N' ↔ N ≡ N' [MOD 2 ^ B - 1] ∧ (N = 0 ↔ N' = 0) := by
  refine ⟨fun h => ⟨?_, ?_⟩, fun ⟨h, hz⟩ => ocsum_congr h hz⟩
  · exact (ocsum_modEq B N).symm.trans (h ▸ ocsum_modEq B N')
  · rw [← ocsum_eq_zero_iff B N, h, ocsum_eq_zero_iff]

/-- A partial sum may be folded, at any width whose modulus the width at hand divides, before it is multiplied and
added to. -/
theorem ocsum_mul_add {B C : Nat} (h : 2 ^ C - 1 ∣ 2 ^ B - 1) {c : Nat} (hc : 0 < c) (x y : Nat) :
    ocsum C (c * ocsum B x + y) = ocsum C (c * x + y) := by
  refine ocsum_congr ((((ocsum_modEq B x).of_dvd h).mul_left c).add_right y) ?_
  simp [hc.ne', ocsum_eq_zero_iff]

/-- A factor may be replaced by a congruent one. -/
theorem ocsum_add_mul_congr {B c c' : Nat} (h : c ≡ c' [MOD 2 ^ B - 1]) (hc : 0 < c) (hc' : 0 < c') (x y : Nat) :
    ocsum B (x + c * y) = ocsum B (x + c' * y) := by
  refine ocsum_congr ((h.mul_right y).add_left x) ?_
  simp [hc.ne', hc'.ne']

/-- The byte swap multiplies a 16-bit one's-complement sum by 256 (41_fold.md R126). -/
theorem swap16_toNat_of_ocsum {v : Half} {N : Nat} (h : v.toNat = ocsum 16 N) :
    (swap16 v).toNat = ocsum 16 (256 * N) := by
  refine eq_ocsum (swap16 v).isLt ((swap16_modEq v).trans ?_) ?_
  · exact (h ▸ ocsum_modEq 16 N).mul_left 256
  · have hz := ocsum_eq_zero_iff 16 N
    rw [swap16_toNat]
    omega

/-! ### Places -/

/-- The powers of 256 have period d modulo 256^d - 1. -/
theorem place_modEq (d k : Nat) : 2 ^ (8 * k) ≡ 2 ^ (8 * (k % d)) [MOD 2 ^ (8 * d) - 1] := by
  have h1 : 2 ^ (8 * d) ≡ 1 [MOD 2 ^ (8 * d) - 1] := Nat.modEq_sub Nat.one_le_two_pow
  calc 2 ^ (8 * k) = (2 ^ (8 * d)) ^ (k / d) * 2 ^ (8 * (k % d)) := by
        rw [← pow_mul, ← pow_add, Nat.mul_assoc, ← Nat.mul_add, Nat.div_add_mod]
    _ ≡ 1 ^ (k / d) * 2 ^ (8 * (k % d)) [MOD 2 ^ (8 * d) - 1] := (h1.pow _).mul_right _
    _ = 2 ^ (8 * (k % d)) := by rw [one_pow, Nat.one_mul]

/-- A byte sum splits anywhere, the second part moved to the place where it starts. -/
theorem byteSum_append_modEq (rd : DWord → Byte) (p : DWord) (m r : Nat) :
    byteSum rd p (m + r) ≡ byteSum rd p m + 2 ^ (8 * m) * byteSum rd (p + BitVec.ofNat 64 m) r
      [MOD 2 ^ 64 - 1] := by
  induction r with
  | zero => rfl
  | succ r ih =>
    rw [← Nat.add_assoc, byteSum_succ, byteSum_succ, ptr_add, Nat.mul_add, ← Nat.add_assoc]
    refine ih.add ?_
    have hplace : 2 ^ (8 * ((m + r) % 8)) ≡ 2 ^ (8 * m) * 2 ^ (8 * (r % 8)) [MOD 2 ^ 64 - 1] :=
      calc 2 ^ (8 * ((m + r) % 8)) ≡ 2 ^ (8 * (m + r)) [MOD 2 ^ 64 - 1] := (place_modEq 8 _).symm
        _ = 2 ^ (8 * m) * 2 ^ (8 * r) := by rw [Nat.mul_add, pow_add]
        _ ≡ 2 ^ (8 * m) * 2 ^ (8 * (r % 8)) [MOD 2 ^ 64 - 1] := (place_modEq 8 r).mul_left _
    rw [Nat.mul_left_comm]
    exact hplace.mul_left _

/-- A byte sum vanishes with both its parts. -/
theorem byteSum_append_eq_zero (rd : DWord → Byte) (p : DWord) (m r : Nat) :
    byteSum rd p (m + r) = 0 ↔ byteSum rd p m = 0 ∧ byteSum rd (p + BitVec.ofNat 64 m) r = 0 := by
  induction r with
  | zero => simp [byteSum_zero]
  | succ r ih =>
    rw [← Nat.add_assoc, byteSum_succ, byteSum_succ, ptr_add, Nat.add_eq_zero_iff, Nat.add_eq_zero_iff, ih]
    simp [and_assoc]

/-- A byte sum in two parts, as a one's-complement sum of width 8d: only the place of the second part modulo d
counts. -/
theorem ocsum_byteSum_append {d : Nat} (hd : 2 ^ (8 * d) - 1 ∣ 2 ^ 64 - 1) (x : Nat) (rd : DWord → Byte) (p : DWord)
    (m r : Nat) :
    ocsum (8 * d) (x + byteSum rd p (m + r)) =
      ocsum (8 * d) (x + byteSum rd p m + 2 ^ (8 * (m % d)) * byteSum rd (p + BitVec.ofNat 64 m) r) := by
  rw [← ocsum_add_mul_congr (place_modEq d m) (by positivity) (by positivity), Nat.add_assoc]
  refine ocsum_congr (((byteSum_append_modEq rd p m r).of_dvd hd).add_left x) ?_
  simp [byteSum_append_eq_zero]

/-- A part that starts at a multiple of d stays in place. -/
theorem ocsum_byteSum_append_aligned {d m : Nat} (hd : 2 ^ (8 * d) - 1 ∣ 2 ^ 64 - 1) (hm : m % d = 0) (x : Nat)
    (rd : DWord → Byte) (p : DWord) (r : Nat) :
    ocsum (8 * d) (x + byteSum rd p (m + r)) =
      ocsum (8 * d) (x + byteSum rd p m + byteSum rd (p + BitVec.ofNat 64 m) r) := by
  rw [ocsum_byteSum_append hd, hm, Nat.mul_zero, pow_zero, Nat.one_mul]

/-! ### Closed forms (R154, R155) -/

/-- ADDR[0] as the parity of the address. -/
theorem getLsbD_zero_iff (a : DWord) : a.getLsbD 0 = true ↔ a.toNat % 2 = 1 := by
  rw [BitVec.getLsbD, Nat.testBit_zero, decide_eq_true_eq]

/-- The kernel at an even address (R154). -/
theorem csumPartial_even_toNat {addr : DWord} (h : addr.toNat % 2 = 0) (rd : DWord → Byte) (len : Nat) (s : Word) :
    (csumPartial rd addr len s).toNat = ocsum 32 (s.toNat + byteSum rd addr len) := by
  have hp : ¬addr.getLsbD 0 = true := by rw [getLsbD_zero_iff, h]; decide
  rw [csumPartial, if_neg hp, fold64_toNat, sumBytes_toNat, ocsum32_ocsum64, BitVec.toNat_setWidth_of_le (by decide)]

/-- Step 1 of R150: the odd byte enters as a high byte, and the sum does not carry. -/
theorem oddSeed_toNat (s : Word) (b : Byte) :
    (s.setWidth 64 + ((b.setWidth 64 : DWord) <<< 8)).toNat = s.toNat + b.toNat * 2 ^ 8 := by
  have hs := s.isLt
  have hb := b.isLt
  rw [BitVec.toNat_add, BitVec.toNat_shiftLeft, Nat.shiftLeft_eq, BitVec.toNat_setWidth_of_le (by decide),
    BitVec.toNat_setWidth_of_le (by decide)]
  omega

/-- The kernel at an odd address is the byte swap of a 16-bit sum (R155). -/
theorem csumPartial_odd {addr : DWord} (h : addr.toNat % 2 = 1) {len : Nat} (hl : 1 ≤ len) (rd : DWord → Byte)
    (s : Word) :
    ∃ v : Half, csumPartial rd addr len s = (swap16 v).setWidth 32 ∧
      v.toNat = ocsum 16 (s.toNat + (rd addr).toNat * 2 ^ 8 + byteSum rd (addr + 1) (len - 1)) := by
  refine ⟨_, (if_pos ((getLsbD_zero_iff addr).mpr h)).trans (if_neg (by omega)), ?_⟩
  rw [fold32to16_fold64_toNat, sumBytes_toNat, ocsum_narrow (by norm_num), oddSeed_toNat]

/-- The odd path as a sum over the whole buffer: the seed alone is byte-swapped (R164). -/
theorem csumPartial_odd_toNat {addr : DWord} (h : addr.toNat % 2 = 1) {len : Nat} (hl : 1 ≤ len) (rd : DWord → Byte)
    (s : Word) :
    (csumPartial rd addr len s).toNat = ocsum 16 (256 * s.toNat + byteSum rd addr len) := by
  obtain ⟨v, hv, hsum⟩ := csumPartial_odd h hl rd s
  have hfirst : byteSum rd addr 1 = (rd addr).toNat := by simp [byteSum_succ, byteSum_zero]
  have hwhole : ocsum 16 (256 * s.toNat + byteSum rd addr len) =
      ocsum 16 (256 * s.toNat + (rd addr).toNat + 256 * byteSum rd (addr + 1) (len - 1)) := by
    have happ := ocsum_byteSum_append (d := 2) (by norm_num) (256 * s.toNat) rd addr 1 (len - 1)
    rwa [hfirst, Nat.add_sub_cancel' hl] at happ
  rw [hv, BitVec.toNat_setWidth_of_le (by decide), swap16_toNat_of_ocsum hsum, hwhole]
  refine ocsum_congr ?_ (by omega)
  rw [Nat.ModEq]
  omega

/-- The 16-bit fold of the kernel at an even address. -/
theorem fold32to16_csumPartial_even_toNat {addr : DWord} (h : addr.toNat % 2 = 0) (rd : DWord → Byte) (len : Nat)
    (s : Word) :
    (fold32to16 (csumPartial rd addr len s)).toNat = ocsum 16 (s.toNat + byteSum rd addr len) := by
  rw [fold32to16_toNat, csumPartial_even_toNat h, ocsum16_ocsum32]

theorem csumPartial_zero (rd : DWord → Byte) (addr : DWord) (s : Word) : csumPartial rd addr 0 s = s := by
  rcases Nat.mod_two_eq_zero_or_one addr.toNat with h | h
  · apply BitVec.eq_of_toNat_eq
    rw [csumPartial_even_toNat h, byteSum_zero, Nat.add_zero, ocsum_of_lt s.isLt]
  · exact (if_pos ((getLsbD_zero_iff addr).mpr h)).trans (if_pos rfl)

/-- Settles O51: the closed form is stated of the byte sum. -/
theorem kernelClosedFormEvenAddress : Obligations.KernelClosedFormEvenAddress :=
  fun rd _ len s h => csumPartial_even_toNat h rd len s

/-- Settles O52: a 16-bit value is known by its number, and the byte sum from addr + 1 on is the shifted one. -/
theorem kernelClosedFormOddAddress : Obligations.KernelClosedFormOddAddress := by
  intro rd addr len s v h hl hv
  obtain ⟨w, hw, hsum⟩ := csumPartial_odd h hl rd s
  have hshift : byteSum rd (addr + 1) (len - 1) =
      ∑ j ∈ Finset.range (len - 1), (rd (addr + BitVec.ofNat 64 (j + 1))).toNat * 2 ^ (8 * (j % 8)) := by
    refine Finset.sum_congr rfl fun j _ => ?_
    rw [show addr + 1 + BitVec.ofNat 64 j = addr + BitVec.ofNat 64 (1 + j) from ptr_add addr 1 j, Nat.add_comm 1 j]
  have hvw : v = w := BitVec.eq_of_toNat_eq (by rw [hv, hsum, hshift])
  rw [hw, hvw]

/-! ### Laws (R156, R157, R159) -/

/-- Settles O53: the odd path ends in a 16-bit sum; a seed of more than 16 bits comes through on the other two. -/
theorem upperHalfIsZeroOnlyOnTheOddPath : Obligations.UpperHalfIsZeroOnlyOnTheOddPath := by
  refine ⟨fun rd addr len s h hl => ?_, ?_, ?_⟩
  · rw [csumPartial_odd_toNat h hl]
    exact ocsum_lt (by decide) _
  · refine ⟨fun _ => 0, 0, 1, 0x10000, by decide, le_rfl, ?_⟩
    rw [csumPartial_even_toNat (by decide)]
    decide
  · refine ⟨fun _ => 0, 1, 0x10000, by decide, ?_⟩
    rw [csumPartial_zero]
    decide

/-- Settles O54: on each path the closed form depends on the seed and the byte sum alone. -/
theorem kernelDependsOnBytesAndParity : Obligations.KernelDependsOnBytesAndParity := by
  intro rd rd' addr addr' len s hpar hbytes
  have hsum : byteSum rd addr len = byteSum rd' addr' len := byteSum_congr hbytes
  rcases Nat.eq_zero_or_pos len with rfl | hl
  · rw [csumPartial_zero, csumPartial_zero]
  apply BitVec.eq_of_toNat_eq
  rcases Nat.mod_two_eq_zero_or_one addr.toNat with h | h
  · rw [csumPartial_even_toNat h, csumPartial_even_toNat (hpar ▸ h), hsum]
  · rw [csumPartial_odd_toNat h hl, csumPartial_odd_toNat (hpar ▸ h) hl, hsum]

/-! ### Alignment (R164) -/

/-- The swapped fold of the seed. -/
theorem swap16_fold32to16_zext_toNat (s : Word) :
    ((swap16 (fold32to16 s)).setWidth 32).toNat = ocsum 16 (256 * s.toNat) := by
  rw [BitVec.toNat_setWidth_of_le (by decide), swap16_toNat_of_ocsum (fold32to16_toNat s)]

/-- The seed in its place and out of it give one sum exactly for the multiples of 257, since 65535 = 255 * 257. -/
theorem ocsum_swapped_seed_iff (s x : Nat) : ocsum 16 (256 * s + x) = ocsum 16 (s + x) ↔ s % 257 = 0 := by
  rw [ocsum_eq_iff, and_iff_left (by omega), Nat.ModEq]
  omega

/-- Settles O58: both paths have the byte sum of the same bytes, and the seed is swapped on the odd one. -/
theorem alignmentSwapsTheInitialSum : Obligations.AlignmentSwapsTheInitialSum := by
  intro rd odd even len s ho he hbytes
  have hsum : byteSum rd odd len = byteSum rd even len := byteSum_congr hbytes
  refine ⟨fun hl => ?_, fun hs => ?_, fun hl => ?_⟩
  · apply BitVec.eq_of_toNat_eq
    rw [csumPartial_odd_toNat ho hl, BitVec.toNat_setWidth_of_le (by decide), fold32to16_csumPartial_even_toNat he,
      swap16_fold32to16_zext_toNat, ocsum_add, hsum]
  · subst hs
    rcases Nat.eq_zero_or_pos len with rfl | hl
    · rw [csumPartial_zero, csumPartial_zero]
      rfl
    · apply BitVec.eq_of_toNat_eq
      rw [csumPartial_odd_toNat ho hl, BitVec.toNat_setWidth_of_le (by decide),
        fold32to16_csumPartial_even_toNat he, hsum]
      rfl
  · rw [← BitVec.toNat_inj, fold32to16_toNat, csumPartial_odd_toNat ho hl, ocsum_of_lt (ocsum_lt (by decide) _),
      fold32to16_csumPartial_even_toNat he, hsum, ocsum_swapped_seed_iff]

/-! ### Chaining (R165) -/

/-- The parity of an address some bytes on. -/
theorem ptr_mod_two (a : DWord) (n : Nat) : (a + BitVec.ofNat 64 n).toNat % 2 = (a.toNat + n) % 2 := by
  rw [BitVec.toNat_add, BitVec.toNat_ofNat]
  omega

/-- A split at a multiple of 4 does not show. -/
theorem chained_of_mod_four_eq_zero {a : DWord} {la : Nat} (ha : a.toNat % 2 = 0) (hla : la % 4 = 0)
    (rd : DWord → Byte) (lb : Nat) (s : Word) :
    csumPartial rd (a + BitVec.ofNat 64 la) lb (csumPartial rd a la s) = csumPartial rd a (la + lb) s := by
  have hb : (a + BitVec.ofNat 64 la).toNat % 2 = 0 := by rw [ptr_mod_two]; omega
  apply BitVec.eq_of_toNat_eq
  rw [csumPartial_even_toNat hb, csumPartial_even_toNat ha, csumPartial_even_toNat ha, ocsum_add]
  exact (ocsum_byteSum_append_aligned (d := 4) (by norm_num) hla s.toNat rd a lb).symm

/-- A split at an even place does not show in the 16-bit fold. -/
theorem fold32to16_chained_of_even {a : DWord} {la : Nat} (ha : a.toNat % 2 = 0) (hla : la % 2 = 0)
    (rd : DWord → Byte) (lb : Nat) (s : Word) :
    fold32to16 (csumPartial rd (a + BitVec.ofNat 64 la) lb (csumPartial rd a la s)) =
      fold32to16 (csumPartial rd a (la + lb) s) := by
  have hb : (a + BitVec.ofNat 64 la).toNat % 2 = 0 := by rw [ptr_mod_two]; omega
  apply BitVec.eq_of_toNat_eq
  rw [fold32to16_csumPartial_even_toNat hb, fold32to16_csumPartial_even_toNat ha, csumPartial_even_toNat ha,
    ← Nat.one_mul (ocsum 32 _), ocsum_mul_add (by norm_num) Nat.one_pos, Nat.one_mul]
  exact (ocsum_byteSum_append_aligned (d := 2) (by norm_num) hla s.toNat rd a lb).symm

/-- A split at an odd place swaps the bytes of the 16-bit fold. -/
theorem chained_of_odd {a : DWord} {la lb : Nat} (ha : a.toNat % 2 = 0) (hla : la % 2 = 1) (hlb : 1 ≤ lb)
    (rd : DWord → Byte) (s : Word) :
    csumPartial rd (a + BitVec.ofNat 64 la) lb (csumPartial rd a la s) =
      (swap16 (fold32to16 (csumPartial rd a (la + lb) s))).setWidth 32 := by
  have hb : (a + BitVec.ofNat 64 la).toNat % 2 = 1 := by rw [ptr_mod_two]; omega
  have hsplit := ocsum_byteSum_append (d := 2) (by norm_num) s.toNat rd a la lb
  rw [hla] at hsplit
  have hwhole := (fold32to16_csumPartial_even_toNat ha rd (la + lb) s).trans hsplit
  apply BitVec.eq_of_toNat_eq
  rw [csumPartial_odd_toNat hb hlb, csumPartial_even_toNat ha, ocsum_mul_add (by norm_num) (by decide),
    BitVec.toNat_setWidth_of_le (by decide), swap16_toNat_of_ocsum hwhole]
  refine ocsum_congr ?_ (by omega)
  rw [Nat.ModEq]
  omega

/-- Settles O59: by the place of the split; a byte at place 2 of the whole is at place 0 of the second piece. -/
theorem chainingFollowsTheSplitPoint : Obligations.ChainingFollowsTheSplitPoint := by
  constructor
  · rintro rd a la lb s _ _ _ ha rfl rfl rfl
    refine ⟨fun hla => chained_of_mod_four_eq_zero ha hla rd lb s,
      fun hla => fold32to16_chained_of_even ha (by omega) rd lb s, fun hla hlb => chained_of_odd ha hla hlb rd s,
      fun _ hlb => ?_⟩
    subst hlb
    exact ⟨csumPartial_zero _ _ _, rfl⟩
  · exact ⟨fun _ => 1, 0, 2, 1, 0, by decide, by decide, by decide⟩

end Sys2Proof.Machine
end

section
/-! CSUM and CSUM40 (43_kernel.md R151, R152, R160 to R162): each commits the kernel's value over its range, and their
ends agree at length 40, since neither the checks of a range nor the bytes read depend on LEN. -/

namespace Sys2Proof.Machine

/-! ### CSUM (R151, R152, R159) -/

/-- A memory command on an ordinary, accepted range commits its function of the port's answers. -/
theorem exec_memoryCommand_committed {i : Instr} {s : State} (hm : MemoryCommand i s.unit)
    (hord : s.Ordinary s.unit.addr (byteCount i s.unit)) (ha : s.Accepts s.unit.addr (byteCount i s.unit)) :
    ∃ (t : State) (rd : DWord → Byte), exec i s = .next t ∧ s.Bytes rd s.unit.addr (byteCount i s.unit) ∧
      Committed s t (memoryResult i rd s.unit) :=
  ⟨_, s.memByte, exec_memoryCommand_accepts hm hord ha, memByte_bytes hord.inSpace ha,
    commit_countDraw_committed _ s⟩

/-- Settles O50: the length is checked before anything else. -/
theorem negativeLengthIsRejected : Obligations.NegativeLengthIsRejected :=
  fun s h => ⟨_, exec_csum_negative h, fail_failed .badLength none s⟩

/-- Settles O49: RESULT alone is written, with the kernel's value of the port's answers. -/
theorem csumWritesTheKernelValue : Obligations.CsumWritesTheKernelValue :=
  ⟨onlyWord_of_encode rfl rfl rfl (by decide) (by decide), fun _ hl hord ha =>
    exec_memoryCommand_committed (i := .csum) hl hord ha⟩

/-- The empty range touches nothing. -/
theorem rangeTouches_zero (s : State) (kind : RegionKind) (addr : DWord) : s.rangeTouches kind addr 0 = false := by
  simp [State.rangeTouches, Region.touches]

/-- The empty range is ordinary at every address. -/
theorem ordinary_zero (s : State) (addr : DWord) : s.Ordinary addr 0 where
  inSpace := addr.isLt.le
  noSideEffect := by simp [State.hasSideEffects, rangeTouches_zero, State.touchesRegBlock, Region.touches]
  answered := rangeTouches_zero s .silent addr

/-- Settles O55: at an odd address by the early return, at an even one since the sum of no bytes is the seed; and CSUM
over the empty range always commits. -/
theorem zeroLengthReturnsTheInitialSum : Obligations.ZeroLengthReturnsTheInitialSum := by
  refine ⟨csumPartial_zero, fun s hl => ?_⟩
  have hcount : byteCount .csum s.unit = 0 := by rw [byteCount, hl]; rfl
  obtain ⟨t, rd, ht, -, hc⟩ := exec_memoryCommand_committed (i := .csum) (s := s)
    (show s.unit.len.toNat < 2 ^ 31 by rw [hl]; decide) (hcount ▸ ordinary_zero s _)
    (hcount ▸ fun _ hk => absurd hk (Nat.not_lt_zero _))
  have hresult : memoryResult .csum rd s.unit = { s.unit with result := s.unit.sumIn } := by
    have hlen : s.unit.len.toNat = 0 := hcount
    rw [memoryResult, hlen, csumPartial_zero]
  exact ⟨t, ht, hresult ▸ hc⟩

/-! ### CSUM40 (R160, R161, R162) -/

/-- A word with CSUM40's opcode whose upper bits are not a hint alone (30_encoding.md R82, R84). -/
theorem decode_csum40_reserved {w : Word} (ho : w.toNat % 256 = 0x31) (hi : 4 ≤ w.toNat / 256) :
    decode w = .error .reserved := by
  have hopc : opcNumber w = 0x31 := ho
  refine decode_reserved_iff.mpr ⟨by rw [hopc]; decide, ?_⟩
  by_cases hr : rsvNumber w = 0
  · refine .inr (.inl ⟨hopc, ?_⟩)
    unfold rsvNumber at hr
    unfold immNumber
    omega
  · exact .inl hr

/-- Settles O56: the words by `decode_encode`, and RESULT alone is written, with the kernel's value. -/
theorem csumFortyWritesTheKernelValue : Obligations.CsumFortyWritesTheKernelValue :=
  ⟨fun h => ⟨decode_encode (.csum40 h), encode_toNat _⟩, fun _ => decode_csum40_reserved, fun _ _ _ => rfl,
    fun h _ hord ha => exec_memoryCommand_committed (i := .csum40 h) trivial hord ha⟩

/-- The state with another LEN. -/
def State.withLen (s : State) (n : Word) : State := { s with unit := { s.unit with len := n } }

/-- A range command whose updates neither read nor write LEN ends in the same way whatever LEN is, and keeps it. -/
theorem onRange_withLen {n : Nat} {run : (DWord → Byte) → CsumUnit → CsumUnit} {len : Word}
    (hrun : ∀ rd u, run rd { u with len := len } = { run rd u with len := len })
    (hlen : ∀ rd u, (run rd u).len = u.len) {s t : State} (h : onRange n run s = .next t) :
    onRange n run (s.withLen len) = .next (t.withLen len) ∧ t.unit.len = s.unit.len := by
  have ho := onRange_outcome n run s
  rw [h] at ho
  cases ho with
  | wrapped hw => exact ⟨onRange_wraps (s := s.withLen len) hw, rfl⟩
  | rejected hord k hk hr hb =>
    have hord' : (s.withLen len).Ordinary s.unit.addr n := ⟨hord.inSpace, hord.noSideEffect, hord.answered⟩
    exact ⟨onRange_rejects (s := s.withLen len) hord' hk hr, rfl⟩
  | done hord ha =>
    have hord' : (s.withLen len).Ordinary s.unit.addr n := ⟨hord.inSpace, hord.noSideEffect, hord.answered⟩
    refine ⟨(onRange_accepts (s := s.withLen len) hord' ha).trans ?_, hlen _ _⟩
    rw [show run (s.withLen len).memByte (s.withLen len).unit = _ from hrun s.memByte s.unit]
    rfl

/-- Settles O57: with LEN = 40 both commands are the same range command, which does not look at LEN. -/
theorem csumFortyAgreesWithCsum : Obligations.CsumFortyAgreesWithCsum := by
  intro s t h ht
  have hcsum : exec .csum (s.withLen 40) = onRange 40 (memoryResult (.csum40 h)) (s.withLen 40) :=
    (exec_memoryCommand (i := .csum) (s := s.withLen 40) (show (40 : Word).toNat < 2 ^ 31 by decide)).trans
      (onRange_congr rfl)
  rw [exec_memoryCommand (i := .csum40 h) trivial] at ht
  obtain ⟨hlen, hkept⟩ := onRange_withLen (run := memoryResult (.csum40 h)) (len := 40) (fun _ _ => rfl)
    (fun _ _ => rfl) ht
  exact ⟨hcsum.trans hlen, hkept⟩

end Sys2Proof.Machine
end

section
/-! Host writes at an offset of the register block (44_control.md R181, R186, R188 to R190): what each register does
with the word, by whether a command runs. -/

namespace Sys2Proof.Machine

/-! ### Accesses that are refused (R188) -/

theorem regOffset_at {p : Platform} {addr : DWord} {off : Nat} (h : addr.toNat = p.regBase.toNat + off)
    (hlt : off < 64) : regOffset p addr = some off := by
  rw [regOffset, if_pos (by simp only [Config.regBlockBytes]; omega), h, Nat.add_sub_cancel_left]

theorem accessedReg_rejected {p : Platform} {addr : DWord} {off : Nat} {width : AccessWidth}
    (h : addr.toNat = p.regBase.toNat + off) (hlt : off < 64) (hw : width ≠ .bits32 ∨ off % 4 ≠ 0) :
    accessedReg p addr width = .error .registerAccessRejected := by
  simp only [accessedReg, regOffset_at h hlt]
  exact if_neg (not_and_or.mpr hw)

/-- Settles O10: such an access reaches no register, so neither a write nor a read has a next state. -/
theorem otherAccessesAreRefused : Obligations.OtherAccessesAreRefused := by
  intro s addr off width ha hlt hw
  have hreg : accessedReg s.afterMove.platform addr width = .error .registerAccessRejected :=
    accessedReg_rejected ha hlt hw
  constructor
  · intro v he
    rw [step_event_head he]
    simp only [takeEvent, hostWrite, hreg]
  · intro he
    rw [step_event_head he]
    simp only [takeEvent, hostRead, hreg]

/-! ### CMD (R181) -/

theorem opcField_eq_srst_iff (v : Word) : opcField v = 0xFF ↔ v.toNat % 256 = 0xFF :=
  (opcNumber_eq_iff v 0xFF).symm

theorem offerCommand_busy {s : State} (hb : s.unit.busy = true) (v : Word) : offerCommand v s = ignoreWrite s :=
  if_pos hb

theorem offerCommand_error {s : State} (hb : s.unit.busy = false) (he : s.unit.errv = true) {v : Word}
    (hv : opcField v ≠ 0xFF) : offerCommand v s = ignoreWrite s := by
  rw [offerCommand, if_neg (by simp [hb]), if_pos ⟨he, hv⟩]

theorem offerCommand_accepted {s : State} (hb : s.unit.busy = false) {v : Word}
    (he : s.unit.errv = true → opcField v = 0xFF) : offerCommand v s = acceptCommand v s := by
  rw [offerCommand, if_neg (by simp [hb]), if_neg (fun h => h.2 (he h.1))]

theorem writeGives_cmd_busy {s : State} (hb : s.unit.busy = true) (v : Word) :
    WriteGives s 0x0C v { s.unit with ovr := true } :=
  writeGives_of_writeReg (by decide) (by decide) (offerCommand_busy (s := s.afterMove) hb v)

theorem step_cmd_accepted {s : State} {v : Word} (hb : s.unit.busy = false)
    (he : s.unit.errv = true → opcField v = 0xFF) (hw : s.HostWrites 0x0C v) :
    step s = .next (acceptCommand v s.afterMove) :=
  (step_of_hostWrites hw (by decide) (by decide)).trans
    (congrArg _ (offerCommand_accepted (s := s.afterMove) hb he))

theorem onlyWord_srst : OnlyWord .srst 0x000000FF := onlyWord_of_encode rfl rfl rfl (by decide) (by decide)

/-- Settles O6: the three cases of `offerCommand`, which does not decode its word. -/
theorem commandWriteIsAcceptedOrIgnored : Obligations.CommandWriteIsAcceptedOrIgnored := by
  refine ⟨onlyWord_srst, fun s v => ⟨fun hb => writeGives_cmd_busy hb v, fun hb he hv => ?_, fun hb he hw => ?_⟩⟩
  · have hv : opcField v ≠ 0xFF := mt (opcField_eq_srst_iff v).mp hv
    exact writeGives_of_writeReg (by decide) (by decide) (offerCommand_error (s := s.afterMove) hb he hv)
  · exact ⟨_, step_cmd_accepted hb (fun h => (opcField_eq_srst_iff v).mpr (he h)) hw, rfl, rfl,
      Kept.of_same rfl rfl rfl rfl rfl⟩

/-- Settles O12: SRST ends in `resetUnit`; its word is offered to CMD like any other, but has the opcode that ERRV lets
pass. -/
theorem srstResetsEveryRegister : Obligations.SrstResetsEveryRegister :=
  ⟨onlyWord_srst, fun s => ⟨resetUnit s, rfl, Kept.of_same rfl rfl rfl rfl rfl, rfl, rfl⟩,
    fun _ hb hw => ⟨_, step_cmd_accepted hb (fun _ => by decide) hw, rfl, rfl⟩,
    fun _ hb => writeGives_cmd_busy hb 0xFF⟩

/-! ### The operand and result registers (R186, R189) -/

/-- The registers that a host write stores to while no command runs. -/
def operandRegs : List Reg := [.addrLo, .addrHi, .len, .sumIn, .accLo, .accHi, .dataLo, .dataHi, .result]

theorem writeReg_operand {r : Reg} (h : r ∈ operandRegs) (v : Word) (s : State) :
    writeReg r v s = offerOperand r v s := by
  simp only [operandRegs, List.mem_cons, List.not_mem_nil, or_false] at h
  obtain rfl | rfl | rfl | rfl | rfl | rfl | rfl | rfl | rfl := h <;> rfl

theorem offerOperand_busy {s : State} (hb : s.unit.busy = true) (r : Reg) (v : Word) :
    offerOperand r v s = ignoreWrite s :=
  if_pos hb

theorem offerOperand_idle {s : State} (hb : s.unit.busy = false) (r : Reg) (v : Word) :
    offerOperand r v s = { s with unit := s.unit.storeOperand r v } :=
  if_neg (by simp [hb])

theorem writeGives_operand_busy {s : State} (hb : s.unit.busy = true) {off : Nat} (hlt : off < 64) (h4 : off % 4 = 0)
    (hr : regAtOffset off ∈ operandRegs) (v : Word) : WriteGives s off v { s.unit with ovr := true } :=
  writeGives_of_writeReg hlt h4 ((writeReg_operand hr v _).trans (offerOperand_busy (s := s.afterMove) hb _ v))

theorem writeGives_operand_idle {s : State} (hb : s.unit.busy = false) {off : Nat} (hlt : off < 64) (h4 : off % 4 = 0)
    (hr : regAtOffset off ∈ operandRegs) (v : Word) :
    WriteGives s off v (s.unit.storeOperand (regAtOffset off) v) :=
  writeGives_of_writeReg hlt h4 ((writeReg_operand hr v _).trans (offerOperand_idle (s := s.afterMove) hb _ v))

theorem eq_setLo {x y : DWord} {v : Word} (h : x.toNat = y.toNat / 2 ^ 32 * 2 ^ 32 + v.toNat) : x = setLo y v :=
  BitVec.eq_of_toNat_eq (h.trans (setLo_toNat y v).symm)

theorem eq_setHi {x y : DWord} {v : Word} (h : x.toNat = v.toNat * 2 ^ 32 + y.toNat % 2 ^ 32) : x = setHi y v :=
  BitVec.eq_of_toNat_eq (h.trans (setHi_toNat y v).symm)

/-! ### STATUS (R27) -/

theorem and_decide_even (b : Bool) (n : Nat) : (b && decide (n % 2 = 0)) = if n % 2 = 1 then false else b := by
  obtain h | h := Nat.mod_two_eq_zero_or_one n <;> simp [h]

/-- `statusWriteClearsWhatItNames` with each bit kept where its clearing bit is 0. -/
theorem writeGives_status (s : State) (v : Word) :
    WriteGives s 0x08 v { s.unit with
      done := s.unit.done && decide (v.toNat / 2 % 2 = 0)
      errv := s.unit.errv && decide (v.toNat / 4 % 2 = 0)
      ecode := if v.toNat / 4 % 2 = 1 then 0 else s.unit.ecode
      ovr := s.unit.ovr && decide (v.toNat / 8 % 2 = 0) } := by
  simp only [and_decide_even]
  exact statusWriteClearsWhatItNames s v

/-! ### All registers -/

/-- Settles O7: CMD and the operand registers check BUSY; CTRL and STATUS do not. -/
theorem busyWritesAreIgnored : Obligations.BusyWritesAreIgnored := by
  refine fun s v hb => ⟨fun off hoff => ?_, (ctrlKeepsBitZero s v).1, writeGives_status s v⟩
  obtain rfl | hoff := List.mem_cons.mp hoff
  · exact writeGives_cmd_busy hb v
  · have operand : ∀ off ∈ [0x10, 0x14, 0x18, 0x1C, 0x20, 0x24, 0x28, 0x2C, 0x30],
        off < 64 ∧ off % 4 = 0 ∧ regAtOffset off ∈ operandRegs := by decide
    obtain ⟨hlt, h4, hr⟩ := operand off hoff
    exact writeGives_operand_busy hb hlt h4 hr v

/-- ID, ERRADDR and 0x3C ignore every write (R189). -/
theorem writeGives_readOnly {off : Nat} (hoff : off ∈ [0x00, 0x34, 0x38, 0x3C]) (s : State) (v : Word) :
    WriteGives s off v s.unit := by
  have readOnly : ∀ off ∈ [0x00, 0x34, 0x38, 0x3C], off < 64 ∧ off % 4 = 0 := by decide
  obtain ⟨hlt, h4⟩ := readOnly off hoff
  refine writeGives_of_writeReg hlt h4 ?_
  simp only [List.mem_cons, List.not_mem_nil, or_false] at hoff
  obtain rfl | rfl | rfl | rfl := hoff <;> rfl

/-- Settles O8: an operand register stores the word, in a half by `setLo` or `setHi`; the others are said above. -/
theorem idleWritesAreStored : Obligations.IdleWritesAreStored := by
  intro s v hb
  have store (off : Nat) (hoff : off < 64 ∧ off % 4 = 0 ∧ regAtOffset off ∈ operandRegs) :
      WriteGives s off v (s.unit.storeOperand (regAtOffset off) v) :=
    writeGives_operand_idle hb hoff.1 hoff.2.1 hoff.2.2 v
  exact ⟨fun x hx => eq_setLo hx ▸ store 0x10 (by decide), fun x hx => eq_setHi hx ▸ store 0x14 (by decide),
    store 0x18 (by decide), store 0x1C (by decide),
    fun x hx => eq_setLo hx ▸ store 0x20 (by decide), fun x hx => eq_setHi hx ▸ store 0x24 (by decide),
    fun x hx => eq_setLo hx ▸ store 0x28 (by decide), fun x hx => eq_setHi hx ▸ store 0x2C (by decide),
    store 0x30 (by decide), fun _ hoff => writeGives_readOnly hoff s v, (ctrlKeepsBitZero s v).1,
    writeGives_status s v⟩

end Sys2Proof.Machine
end

section
/-! The run of an accepted command (44_control.md R182 to R185, R192, R193): how it ends, when it is sure to end, and
what cannot stop it. -/

namespace Sys2Proof.Machine

/-! ### The block's move (R182) -/

theorem step_pending {s : State} {w : Word} (hb : s.BlockMoves) (hp : s.unit.pending = some w) :
    step s = execWord w s.afterMove :=
  (step_block hb).trans (blockTurn_pending (s := s.afterMove) hp)

/-- Settles O5: the step of a pending word is `execWord`, in either case of `decode`. -/
theorem stepRunsTheDecodedCommand : Obligations.StepRunsTheDecodedCommand :=
  fun _ _ hb hp => ⟨fun _ hd => (step_pending hb hp).trans (execWord_ok hd _),
    fun _ hd => (step_pending hb hp).trans (execWord_error hd _)⟩

/-! ### Commit or failure (R183 to R185) -/

theorem memoryResult_sameControl (i : Instr) (rd : DWord → Byte) (u : CsumUnit) :
    SameControl u (memoryResult i rd u) := by
  cases i <;> exact ⟨rfl, rfl, rfl, rfl, rfl, rfl, rfl, rfl⟩

/-- A commit by a command that leaves the control registers alone, or a failure, where an address other than the one
ERRADDR held comes with RANGE or BUS. -/
def EndsWithItsFrame (s t : State) : Prop :=
  (∃ u, Committed s t u ∧ SameControl s.unit u) ∨
    ∃ code errAddr, Failed s t code errAddr ∧ (errAddr = s.unit.errAddr ∨ code = 5 ∨ code = 6)

theorem RangeOutcome.endsWithItsFrame {n : Nat} {run : (DWord → Byte) → CsumUnit → CsumUnit} {s t : State}
    (h : RangeOutcome n run s (.next t)) (hrun : ∀ rd u, SameControl u (run rd u)) : EndsWithItsFrame s t := by
  cases h with
  | wrapped h => exact .inr ⟨_, _, fail_failed _ _ s, .inr (.inl rfl)⟩
  | rejected h k hk hr hb => exact .inr ⟨_, _, fail_countDraw_failed _ _ s, .inr (.inr rfl)⟩
  | done h ha => exact .inl ⟨_, commit_countDraw_committed _ s, hrun _ _⟩

theorem exec_endsWithItsFrame {i : Instr} {s t : State} (hi : i ≠ .srst) (h : exec i s = .next t) :
    EndsWithItsFrame s t := by
  have ho := exec_outcome i s
  rw [h] at ho
  cases ho with
  | registers u hm hn hi hcf hu => exact .inl ⟨u, commit_committed u s, hu⟩
  | badCount n hi hn => exact .inr ⟨_, _, fail_failed _ none s, .inl rfl⟩
  | badLength hi hl => exact .inr ⟨_, _, fail_failed _ none s, .inl rfl⟩
  | range hm ho => exact ho.endsWithItsFrame (memoryResult_sameControl i)
  | reset hr => exact absurd hr hi

/-- Settles O11: of the outcomes of a command, only SRST's reset is neither a commit nor a failure with its frame. -/
theorem commandsEndByCommitOrFailure : Obligations.CommandsEndByCommitOrFailure :=
  fun _ _ _ hi h => (exec_endsWithItsFrame hi h).imp_left fun ⟨u, hc, hu⟩ =>
    ⟨u, hc, hu.ie, hu.errv, hu.ecode, hu.ovr, hu.errAddr, hu.addr, hu.len, hu.sumIn⟩

/-! ### Completion (R193) -/

/-- A command stops without a next state only at a range that is not ordinary memory. -/
theorem exec_next {i : Instr} {s : State} (hd : s.hasSideEffects s.unit.addr (byteCount i s.unit) = false)
    (hs : s.rangeTouches .silent s.unit.addr (byteCount i s.unit) = false) : ∃ t, exec i s = .next t := by
  have ho := exec_outcome i s
  generalize exec i s = o at ho
  cases ho with
  | registers | badCount | badLength | reset => exact ⟨_, rfl⟩
  | range hm ho =>
    cases ho with
    | wrapped | rejected | done => exact ⟨_, rfl⟩
    | sideEffects h hd' => simp [hd] at hd'
    | silent h hd' hs' => simp [hs] at hs'

/-- Settles O14: a word that does not decode fails; a command answers on its word's range, and then no command runs. -/
theorem acceptedCommandsComplete : Obligations.AcceptedCommandsComplete := by
  intro s w hb hp hd hs
  cases hw : decode w with
  | error e => exact ⟨_, (stepRunsTheDecodedCommand s w hb hp).2 e hw, rfl, rfl, rfl⟩
  | ok i =>
    rw [wordByteCount_of_decode hw] at hd hs
    obtain ⟨t, ht⟩ := exec_next (s := s.afterMove) hd hs
    exact ⟨t, ((stepRunsTheDecodedCommand s w hb hp).1 i hw).trans ht, (exec_end ht).idle⟩

/-! ### Nothing but the reset stops it (R192) -/

/-- While BUSY a register write is not stored and not accepted: only CTRL and STATUS can change. -/
theorem WriteEnd.unit_of_busy {v : Word} {s t : State} (h : WriteEnd v s t) (hb : s.unit.busy = true) :
    t.unit = { s.unit with
      ie := t.unit.ie, done := t.unit.done, errv := t.unit.errv, ecode := t.unit.ecode, ovr := t.unit.ovr } := by
  cases h with
  | ignored | overrun | ctrl | status => rfl
  | accepted hidle | stored r hidle => simp [hb] at hidle

/-- Settles O13: of the events, only the hardware reset and register writes reach the block, and a write finds it
BUSY. -/
theorem onlyResetStopsARunningCommand : Obligations.OnlyResetStopsARunningCommand := by
  intro s t w e hp hb he hturn hreset h
  rw [step_event_head he] at h
  obtain ⟨v, t', hw, hu⟩ | ⟨hr, -⟩ := (takeEvent_end hturn h).unit_cases
  · rw [hu]
    exact hw.unit_of_busy hb
  · exact absurd hr hreset

end Sys2Proof.Machine
end

section
/-! Errors and the interrupt (60_exceptions.md): which error a pending word ends with (R201, R204), the address a BUS
error records (R203), and IRQ (R210, R211). -/

namespace Sys2Proof.Machine

/-! ### The operand errors of a word that decodes (R204) -/

/-- A word decodes exactly if it passes R84's three checks. -/
theorem decode_isOk_iff {w : Word} :
    (∃ i, decode w = .ok i) ↔ opcNumber w ∈ opcodeNumbers ∧ ¬ReservedBitSet w ∧ ¬BadCount w := by
  constructor
  · rintro ⟨i, hd⟩
    have passes (e : ErrCode) : ¬FirstFailingCheck w e := fun h => by simpa [hd] using h.decode_eq
    have h1 := not_not.mp (mt .illegal (passes _))
    have h2 := mt (.reserved h1) (passes _)
    exact ⟨h1, h2, mt (.badCount h2) (passes _)⟩
  · rintro ⟨h1, h2, h3⟩
    cases hd : decode w with
    | ok i => exact ⟨i, rfl⟩
    | error e =>
      cases firstFailingCheck_of_decode hd with
      | illegal h => exact absurd h1 h
      | reserved _ h => exact absurd h h2
      | badCount _ h => exact absurd h h3

theorem opcNumber_csum_iff {w : Word} {i : Instr} (hd : decode w = .ok i) : opcNumber w = 0x30 ↔ i = .csum := by
  have ho : opcNumber w = 0x30 ↔ opcodeOf i = 0x30 := (decode_ok_fields hd).1 ▸ opcNumber_eq_iff w 0x30
  rw [ho]
  cases i <;> simp [opcodeOf]

/-- An error of decoding is an operand error, with ERRADDR kept. -/
theorem operandError_of_decode_error {w : Word} {e : ErrCode} (hd : decode w = .error e) (u : CsumUnit) :
    OperandError w u (errNumber e) u.errAddr := by
  cases firstFailingCheck_of_decode hd with
  | illegal h1 => exact .illegal h1
  | reserved h1 h2 => exact .reserved h1 h2
  | badCount h2 h3 => exact .badCount (assigned_of_badCount h3) h2 h3

/-- A word that decodes has BAD_LENGTH for a negative length of CSUM (43_kernel.md R152). -/
theorem operandError_badLength {w : Word} {u : CsumUnit} (hd : decode w = .ok .csum) (hl : 2 ^ 31 ≤ u.len.toNat) :
    OperandError w u 3 u.errAddr := by
  obtain ⟨h1, h2, h3⟩ := decode_isOk_iff.mp ⟨_, hd⟩
  exact .badLength h1 h2 h3 ⟨(opcNumber_csum_iff hd).mpr rfl, hl⟩

/-- A word that decodes has RANGE if its range wraps and its length is no error (20_memory.md R70). -/
theorem operandError_range {w : Word} {u : CsumUnit} {i : Instr} (hd : decode w = .ok i)
    (hl : i = .csum → u.len.toNat < 2 ^ 31) (h : 2 ^ 64 < u.addr.toNat + byteCount i u) :
    OperandError w u 5 u.addr := by
  obtain ⟨h1, h2, h3⟩ := decode_isOk_iff.mp ⟨_, hd⟩
  refine .range h1 h2 h3 (fun ⟨ho, hlen⟩ => ?_) (wordByteCount_of_decode hd u ▸ h)
  exact absurd (hl ((opcNumber_csum_iff hd).mp ho)) (Nat.not_lt.mpr hlen)

theorem ldw_wellFormed_iff {n : BitVec 4} : (Instr.ldw n).WellFormed ↔ 1 ≤ n.toNat ∧ n.toNat ≤ 8 := by
  simp [Instr.WellFormed, Instr.wf, Config.loaderMax]

/-- The commands that read bytes are the memory commands, once the count and the length are legal. -/
theorem memoryCommand_of_byteCount_pos {i : Instr} {u : CsumUnit} (hw : i.WellFormed)
    (hl : i = .csum → u.len.toNat < 2 ^ 31) (hn : 0 < byteCount i u) : MemoryCommand i u := by
  cases i with
  | ldw n => exact ldw_wellFormed_iff.mp hw
  | csum => exact hl rfl
  | csum40 hint => trivial
  | _ => exact absurd hn (Nat.lt_irrefl 0)

/-- A range that wraps ends a command with RANGE before any read. -/
theorem exec_wraps {i : Instr} {s : State} (hw : i.WellFormed) (hl : i = .csum → s.unit.len.toNat < 2 ^ 31)
    (h : 2 ^ 64 < s.unit.addr.toNat + byteCount i s.unit) :
    exec i s = .next (fail .range (some s.unit.addr) s) := by
  have hn : 0 < byteCount i s.unit := by
    have := s.unit.addr.isLt
    omega
  rw [exec_memoryCommand (memoryCommand_of_byteCount_pos hw hl hn), onRange_wraps h]

/-- Each operand error ends the step with its code: the first three are those of decoding, the others those of the
decoded command. -/
theorem OperandError.step_failed {s : State} {w : Word} {code : BitVec 4} {a : DWord}
    (h : OperandError w s.unit code a) (hb : s.BlockMoves) (hp : s.unit.pending = some w) :
    ∃ t, step s = .next t ∧ Failed s.afterMove t code a := by
  have step_ok {i : Instr} (hd : decode w = .ok i) : step s = exec i s.afterMove :=
    (stepRunsTheDecodedCommand s w hb hp).1 i hd
  cases h with
  | illegal h1 => exact step_decode_error hb hp (decode_illegal_iff.mpr h1)
  | reserved h1 h2 => exact step_decode_error hb hp (decode_reserved_iff.mpr ⟨h1, h2⟩)
  | badCount h1 h2 h3 => exact step_decode_error hb hp (decode_badCount_iff.mpr ⟨h2, h3⟩)
  | badLength h1 h2 h3 h4 =>
    obtain ⟨i, hd⟩ := decode_isOk_iff.mpr ⟨h1, h2, h3⟩
    obtain rfl := (opcNumber_csum_iff hd).mp h4.1
    exact ⟨_, (step_ok hd).trans (exec_csum_negative (s := s.afterMove) h4.2), fail_failed .badLength none _⟩
  | range h1 h2 h3 h4 h5 =>
    obtain ⟨i, hd⟩ := decode_isOk_iff.mpr ⟨h1, h2, h3⟩
    have hl (hi : i = .csum) : s.unit.len.toNat < 2 ^ 31 :=
      Nat.not_le.mp fun hlen => h4 ⟨(opcNumber_csum_iff hd).mpr hi, hlen⟩
    rw [wordByteCount_of_decode hd] at h5
    exact ⟨_, (step_ok hd).trans (exec_wraps (s := s.afterMove) (wellFormed_of_decode hd) hl h5),
      fail_failed .range (some s.unit.addr) _⟩

/-- Of the outcomes of a decoded command with no operand error, only that of a rejected byte sets ERRV. -/
theorem exec_error_is_bus {w : Word} {i : Instr} {s t : State} (hd : decode w = .ok i)
    (hno : ∀ code a, ¬OperandError w s.unit code a) (he : s.unit.errv = false) (h : exec i s = .next t)
    (ht : t.unit.errv = true) : t.unit.ecode = 6 := by
  have ho := exec_outcome i s
  rw [h] at ho
  cases ho with
  | registers u hm hn hi hcf hu => exact absurd ht (by simp [hu.errv, he])
  | badCount n hi hn =>
    obtain ⟨h1, h8⟩ := ldw_wellFormed_iff.mp (hi ▸ wellFormed_of_decode hd)
    rcases hn with rfl | hn
    · exact absurd h1 (by decide)
    · exact absurd h8 (Nat.not_le.mpr hn)
  | badLength hi hl => exact absurd (operandError_badLength (hi ▸ hd) hl) (hno _ _)
  | reset hi => exact absurd ht Bool.false_ne_true
  | range hm ho =>
    cases ho with
    | wrapped hwrap =>
      have hl (hi : i = .csum) : s.unit.len.toNat < 2 ^ 31 := by
        subst hi
        exact hm
      exact absurd (operandError_range hd hl hwrap) (hno _ _)
    | rejected h k hk hr hbus => rfl
    | done h ha => exact absurd ht (by simp [(memoryResult_sameControl i _ _).errv, he])

/-- Settles O29: an operand error ends the step by itself, and without one the word decodes and only BUS is left. -/
theorem errorsFollowTheirPriority : Obligations.ErrorsFollowTheirPriority := by
  refine fun s w hb hp => ⟨fun code a h => h.step_failed hb hp, fun t hno he h ht => ?_⟩
  cases hd : decode w with
  | error e => exact absurd (operandError_of_decode_error hd s.unit) (hno _ _)
  | ok i =>
    rw [(stepRunsTheDecodedCommand s w hb hp).1 i hd] at h
    exact exec_error_is_bus (s := s.afterMove) hd hno he h ht

/-! ### BUS (R203) -/

/-- Whatever the draw, the address BUS records is one of the rejected bytes' of the range. -/
theorem busAddress_rejectedIn {s : State} {addr : DWord} {n k : Nat} (hn : addr.toNat + n ≤ 2 ^ 64) (hk : k < n)
    (hr : s.answer (addr.toNat + k) = none) (draw : Nat) :
    ∃ j < n, (busAddress (s.rejectedIn addr n) draw).toNat = addr.toNat + j ∧ s.answer (addr.toNat + j) = none := by
  obtain ⟨x, hx, hb⟩ := busAddress_mem draw (List.ne_nil_of_mem (mem_rejectedIn.mpr ⟨k, hk, rfl, hr⟩))
  obtain ⟨j, hj, rfl, hnone⟩ := mem_rejectedIn.mp hx
  refine ⟨j, hj, ?_, hnone⟩
  rw [hb, BitVec.toNat_ofNat]
  omega

/-- Settles O30: a rejected byte ends the command with BUS, and the recorded address is drawn from the rejected ones. -/
theorem busErrorRecordsARejectedAddress : Obligations.BusErrorRecordsARejectedAddress := by
  intro i s k hm hord hk hr
  obtain ⟨j, hj, ha, hnone⟩ := busAddress_rejectedIn hord.inSpace hk hr s.draws
  exact ⟨_, _, j, (exec_memoryCommand hm).trans (onRange_rejects hord hk hr), fail_countDraw_failed .bus _ s, hj, ha,
    ha ▸ hnone⟩

/-! ### IRQ (R210, R211) -/

/-- DONE and ERRV are bits 1 and 2 of STATUS (10_state.md R26). -/
theorem statusNumber_done_errv (u : CsumUnit) :
    statusNumber u / 2 % 2 = u.done.toNat ∧ statusNumber u / 4 % 2 = u.errv.toNat := by
  have hb := Bool.toNat_le u.busy
  have hd := Bool.toNat_le u.done
  have he := Bool.toNat_le u.errv
  rw [statusNumber, ← shownEcode_toNat]
  omega

/-- Settles O31: bit 0 of CTRL is IE, bits 1 and 2 of STATUS are DONE and ERRV. -/
theorem irqIsAFunctionOfCtrlAndStatus : Obligations.IrqIsAFunctionOfCtrlAndStatus := by
  intro u
  obtain ⟨hd, he⟩ := statusNumber_done_errv u
  have hs : (u.readReg .status).toNat = statusNumber u := statusWord_toNat u
  rw [readReg_ctrl_toNat, hs, hd, he, Nat.mod_eq_of_lt (Bool.toNat_lt u.ie)]
  simp [CsumUnit.irq]

/-- Settles O32: the writes of STATUS (R27), CMD (R181) and CTRL (R25) do what their own rules say, and a reset
clears DONE and ERRV. -/
theorem irqIsClearedInFiveWays : Obligations.IrqIsClearedInFiveWays := by
  intro s
  refine ⟨fun v hdone herrv hw => ?_, fun v hb he hw => ?_, ⟨resetUnit s, rfl, rfl⟩,
    fun h => ⟨resetUnit s.afterMove, step_event_head h, rfl⟩, fun v hv hw => ?_⟩
  · obtain ⟨t, ht, hu, -⟩ := statusWriteClearsWhatItNames s v hw
    exact ⟨t, ht, by simp [CsumUnit.irq, hu, hdone, herrv]⟩
  · exact ⟨_, step_cmd_accepted hb (fun h => (opcField_eq_srst_iff v).mpr (he h)) hw, rfl, rfl⟩
  · obtain ⟨t, ht, hu, -⟩ := (ctrlKeepsBitZero s v).1 hw
    exact ⟨t, ht, by simp [CsumUnit.irq, hu, hv], by rw [hu], by rw [hu]⟩

end Sys2Proof.Machine
end

section
/-! The hardware reset as an event (70_reset_and_hazards.md R230, R231): the step is `resetUnit` on the state after the
move, in every state, so a running command ends with neither a commit nor a failure record. -/

namespace Sys2Proof.Machine

theorem step_hardwareReset {s : State} (h : s.events.head? = some .hardwareReset) :
    step s = .next (resetUnit s.afterMove) :=
  step_event_head h

/-- A reset writes the block's registers and the read window alone: memory stays (R231, log 22). -/
theorem resetUnit_kept (s : State) : Kept s (resetUnit s) :=
  .of_same (resetUnit_port s) (resetUnit_unseen s) (resetUnit_platform s) (resetUnit_events s) (resetUnit_reads s)

/-- IE, DONE and ERRV are 0 at reset (R45), so the line is low (R210). -/
theorem reset_irq : CsumUnit.reset.irq = false := rfl

/-- Settles O33: the step is `resetUnit`, whose registers are those of `CsumUnit.reset`. -/
theorem hardwareResetAbandonsTheCommand : Obligations.HardwareResetAbandonsTheCommand := fun s h =>
  ⟨resetUnit s.afterMove, step_hardwareReset h, resetUnit_kept s.afterMove, resetUnit_window s.afterMove, reset_irq,
    resetUnit_unit s.afterMove⟩

end Sys2Proof.Machine
end
